-- ==== Sys2Proof/Word.lean ====
section
/-! DEFINITION. The words of the QOI codec core: bytes, 32-bit header integers and pixels. -/

namespace Sys2Proof

/-- An unsigned integer 0..255 (00_scope.md R18). -/
abbrev Byte := BitVec 8

/-- An unsigned integer 0..2^32-1, as the header carries it (00_scope.md R14, R18). -/
abbrev U32 := BitVec 32

/-- A pixel: four unsigned 8-bit channels (00_scope.md R11, R21). Two pixels are equal exactly when all
four channels are. -/
structure Pixel where
  r : Byte
  g : Byte
  b : Byte
  a : Byte
  deriving DecidableEq, Repr, Inhabited

/-- The value `prev` takes at the start of a pass (00_scope.md §5, "Seed pixel"). -/
def Pixel.seed : Pixel := ⟨0, 0, 0, 255⟩

/-- What every cache slot holds at the start of a pass (10_state.md R41, R50). -/
def Pixel.zero : Pixel := ⟨0, 0, 0, 0⟩

/-- The colour cache: 64 pixel slots (00_scope.md R9). -/
abbrev Cache := Vector Pixel 64

/-- The colour cache at the start of a pass. -/
def Cache.cleared : Cache := Vector.replicate 64 Pixel.zero

end Sys2Proof
end

