-- ==== Sys2Proof/Config.lean ====
section
/-! DEFINITION. What an implementation fixes (00_scope.md §3), and the free values: what the spec leaves
unspecified, as constants without a body. -/

namespace Sys2Proof.Config

/-- The largest run (00_scope.md R10). -/
abbrev runMax : Nat := 62

/-- The length of the header (00_scope.md R12). -/
abbrev headerBytes : Nat := 14

/-- The magic tag "qoif" (20_memory.md R64). -/
def magic : List Byte := [0x71, 0x6F, 0x69, 0x66]

/-- The end marker (00_scope.md R13). -/
def endMarker : List Byte := [0, 0, 0, 0, 0, 0, 0, 1]

/-- The values of the parameter TRAILING_BYTES (00_scope.md R16). -/
inductive TrailingBytes where
  | reject
  | ignore
  deriving DecidableEq, Repr

/-- The parameters of one implementation. They are no state of the machine (10_state.md R55): they ride
in `State` because `step` takes a state only, and no step writes them. -/
structure Params where
  trailing : TrailingBytes
  deriving DecidableEq, Repr

/-- The spec's defaults (00_scope.md R16: "This spec's default is `reject`"). -/
def Params.default : Params := ⟨.reject⟩

/-- What ENC's registers and output buffer hold after an error (60_exceptions.md R146, U2). -/
structure EncLeft where
  W     : U32
  H     : U32
  C     : Byte
  CS    : Byte
  k     : Nat
  oc    : Nat
  prev  : Pixel
  run   : Nat
  cache : Cache
  ob    : List Host.Cell
  deriving DecidableEq, Repr, Inhabited

/-- What DEC's registers and output buffer hold after an error (60_exceptions.md R146, U2). -/
structure DecLeft where
  W     : U32
  H     : U32
  C     : Byte
  CS    : Byte
  N     : Nat
  pos   : Nat
  n     : Nat
  prev  : Pixel
  run   : Nat
  cache : Cache
  po    : List Host.Cell
  deriving DecidableEq, Repr, Inhabited

/-- Free value, log entry 2: what the j-th error of an ENC leaves in it. The spec leaves it unspecified
(60_exceptions.md R146, 93_implementation_defined.md U2 "any value"), so nothing can be proved of it. -/
opaque encLeft : Nat → EncLeft

/-- Free value, log entry 2: what the j-th error of a DEC leaves in it (60_exceptions.md R146, U2). -/
opaque decLeft : Nat → DecLeft

end Sys2Proof.Config
end

