-- ==== Sys2Proof/Syntax.lean ====
section
/-! DEFINITION. The instructions: one constructor per row of spec/opcode_table.json, with the operands of
30_encoding.md R95. -/

namespace Sys2Proof

/-- The six chunks, the end marker and the header. Deltas are the plain integers of 30_encoding.md R88,
after the bias is removed. -/
inductive Instr where
  /-- `INDEX idx` (30_encoding.md R79). -/
  | index (idx : Fin 64)
  /-- `DIFF dr, dg, db` (R80). -/
  | diff (dr dg db : Int)
  /-- `LUMA dg, drg, dbg`, where drg = dr - dg and dbg = db - dg (R81). -/
  | luma (dg drg dbg : Int)
  /-- `RUN n` (R82). -/
  | run (n : Nat)
  /-- `RGB r, g, b` (R83). -/
  | rgb (r g b : Byte)
  /-- `RGBA r, g, b, a` (R84). -/
  | rgba (r g b a : Byte)
  /-- `END` (R85). -/
  | endMarker
  /-- `HEADER w, h, c, cs` (R78). -/
  | header (w h : U32) (c cs : Byte)
  deriving DecidableEq, Repr

end Sys2Proof
end

