-- ==== Sys2Proof/WellFormed.lean ====
section
/-! DEFINITION. Which instructions an encoding holds (30_encoding.md R95, R96). -/

namespace Sys2Proof

/-- `x in lo..hi`, both bounds included (00_scope.md R25). -/
abbrev inRange (lo hi x : Int) : Prop := lo ≤ x ∧ x ≤ hi

/-- The operands lie in the ranges of 30_encoding.md R95 (R96: outside them no encoding holds them).
INDEX, RGB, RGBA and HEADER operands cannot leave theirs: their types are as wide as their fields. -/
def wellFormed (i : Instr) : Bool :=
  match i with
  | .index _         => true
  | .diff dr dg db   => decide (inRange (-2) 1 dr ∧ inRange (-2) 1 dg ∧ inRange (-2) 1 db)
  | .luma dg drg dbg => decide (inRange (-32) 31 dg ∧ inRange (-8) 7 drg ∧ inRange (-8) 7 dbg)
  | .run n           => decide (1 ≤ n ∧ n ≤ 62)
  | .rgb _ _ _       => true
  | .rgba _ _ _ _    => true
  | .endMarker       => true
  | .header _ _ _ _  => true

end Sys2Proof
end

