-- ==== Sys2Proof/Decode.lean ====
section
/-! DEFINITION. The decoder from bytes to instructions, the encoder back, and the numbering of an
instruction's bits in spec/opcode_table.json (30_encoding.md). -/

namespace Sys2Proof

/-! ## Fields of a byte -/

/-- The slice `b[lo+width-1 : lo]`, as an unsigned integer (00_scope.md R19). -/
def bits (b : Byte) (lo width : Nat) : Nat := (b.toNat >>> lo) % 2 ^ width

/-- `value + bias` as a stored field, in the low bits of a byte (30_encoding.md R88). -/
def biased (value bias : Int) : Byte := BitVec.ofInt 8 (value + bias)

/-- Removing a bias: a plain integer, without sign extension (30_encoding.md R88). -/
def unbiased (stored : Nat) (bias : Int) : Int := (stored : Int) - bias

/-- Byte `j` of a 32-bit integer, 3 the most significant (30_encoding.md R78, R97). -/
def u32Byte (w : U32) (j : Nat) : Byte := BitVec.ofNat 8 (w.toNat >>> (8 * j))

/-- A big-endian u32 (00_scope.md R23, 20_memory.md R62). -/
def be32 (x0 x1 x2 x3 : Byte) : U32 :=
  BitVec.ofNat 32 (x0.toNat * 2 ^ 24 + x1.toNat * 2 ^ 16 + x2.toNat * 2 ^ 8 + x3.toNat)

/-! ## The first-byte map -/

/-- The six chunk kinds (00_scope.md R2). -/
inductive ChunkKind where
  | index
  | diff
  | luma
  | run
  | rgb
  | rgba
  deriving DecidableEq, Repr

/-- The kind a chunk's first byte selects: the two 8-bit tags first, the 2-bit tags after them
(30_encoding.md R86, R87). -/
def chunkKind (b0 : Byte) : ChunkKind :=
  if b0 = 0xFE then .rgb
  else if b0 = 0xFF then .rgba
  else match bits b0 6 2 with
    | 0 => .index
    | 1 => .diff
    | 2 => .luma
    | _ => .run

/-- The length of a chunk, from its first byte alone (30_encoding.md R86, R93). -/
def ChunkKind.length : ChunkKind → Nat
  | .rgb   => 4
  | .rgba  => 5
  | .luma  => 2
  | .index => 1
  | .diff  => 1
  | .run   => 1

/-! ## The decoder -/

/-- Where in the image byte stream an instruction stands (20_memory.md R70): the header and the end
marker are recognised by position, not by value (30_encoding.md R94). -/
inductive Position where
  | header
  | chunk
  | marker
  deriving DecidableEq, Repr

/-- Why the bytes at a position are no instruction. -/
inductive DecodeError where
  /-- No byte stands at a chunk position (42_decoder.md R127). -/
  | noBytes
  /-- A chunk's operand bytes run past the end (R130 to R132). -/
  | cutOff (k : ChunkKind)
  /-- Fewer than 8 bytes stand at the marker's position (R136). -/
  | shortMarker
  /-- The 8 bytes at the marker's position are not the marker (R136). -/
  | badMarker
  /-- Fewer than 14 bytes stand at the header's position (40_header_codec.md R98). -/
  | shortHeader
  /-- The magic tag is not "qoif" (R98). -/
  | badMagic
  deriving DecidableEq, Repr

/-- A chunk and the bytes after it (30_encoding.md R79 to R84, R86). -/
def decodeChunk : List Byte → Except DecodeError (Instr × List Byte)
  | [] => .error .noBytes
  | b0 :: rest =>
    match chunkKind b0 with
    | .index => .ok (.index (Fin.ofNat 64 (bits b0 0 6)), rest)
    | .diff =>
      .ok (.diff (unbiased (bits b0 4 2) 2) (unbiased (bits b0 2 2) 2) (unbiased (bits b0 0 2) 2), rest)
    | .luma =>
      match rest with
      | b1 :: rest =>
        .ok (.luma (unbiased (bits b0 0 6) 32) (unbiased (bits b1 4 4) 8) (unbiased (bits b1 0 4) 8), rest)
      | _ => .error (.cutOff .luma)
    | .run => .ok (.run (bits b0 0 6 + 1), rest)
    | .rgb =>
      match rest with
      | r :: g :: b :: rest => .ok (.rgb r g b, rest)
      | _ => .error (.cutOff .rgb)
    | .rgba =>
      match rest with
      | r :: g :: b :: a :: rest => .ok (.rgba r g b a, rest)
      | _ => .error (.cutOff .rgba)

/-- The end marker and the bytes after it (30_encoding.md R85, 42_decoder.md R136). -/
def decodeMarker (bytes : List Byte) : Except DecodeError (Instr × List Byte) :=
  if bytes.length < 8 then .error .shortMarker
  else if bytes.take 8 = Config.endMarker then .ok (.endMarker, bytes.drop 8)
  else .error .badMarker

/-- A header and the bytes after it (30_encoding.md R78). The checks of the fields `channels` and
`colorspace` belong to `decodeHeader` (40_header_codec.md R98), not to the encoding (R95). -/
def decodeHeaderBytes : List Byte → Except DecodeError (Instr × List Byte)
  | m0 :: m1 :: m2 :: m3 :: w0 :: w1 :: w2 :: w3 :: h0 :: h1 :: h2 :: h3 :: c :: cs :: rest =>
    if [m0, m1, m2, m3] = Config.magic then
      .ok (.header (be32 w0 w1 w2 w3) (be32 h0 h1 h2 h3) c cs, rest)
    else .error .badMagic
  | _ => .error .shortHeader

/-- The decoder: the instruction at a position, with the bytes after it, or why there is none. -/
def decode (p : Position) (bytes : List Byte) : Except DecodeError (Instr × List Byte) :=
  match p with
  | .header => decodeHeaderBytes bytes
  | .chunk  => decodeChunk bytes
  | .marker => decodeMarker bytes

/-! ## The encoder -/

/-- Where an instruction stands (20_memory.md R70). -/
def Instr.position : Instr → Position
  | .index _         => .chunk
  | .diff _ _ _      => .chunk
  | .luma _ _ _      => .chunk
  | .run _           => .chunk
  | .rgb _ _ _       => .chunk
  | .rgba _ _ _ _    => .chunk
  | .endMarker       => .marker
  | .header _ _ _ _  => .header

/-- How many bytes an instruction has (30_encoding.md R77). -/
def Instr.size : Instr → Nat
  | .index _         => 1
  | .diff _ _ _      => 1
  | .luma _ _ _      => 2
  | .run _           => 1
  | .rgb _ _ _       => 4
  | .rgba _ _ _ _    => 5
  | .endMarker       => 8
  | .header _ _ _ _  => 14

/-- The 14 header bytes (40_header_codec.md R97). No check: `encodeHeader` does not validate. -/
def encodeHeader (w h : U32) (c cs : Byte) : List Byte :=
  Config.magic ++ [u32Byte w 3, u32Byte w 2, u32Byte w 1, u32Byte w 0,
    u32Byte h 3, u32Byte h 2, u32Byte h 1, u32Byte h 0, c, cs]

/-- The bytes of an instruction (30_encoding.md R95, from the formats R78 to R85). -/
def encode : Instr → List Byte
  | .index idx       => [BitVec.ofNat 8 idx.val]
  | .diff dr dg db   => [0x40 ||| (biased dr 2 <<< 4) ||| (biased dg 2 <<< 2) ||| biased db 2]
  | .luma dg drg dbg => [0x80 ||| biased dg 32, (biased drg 8 <<< 4) ||| biased dbg 8]
  | .run n           => [0xC0 ||| biased n (-1)]
  | .rgb r g b       => [0xFE, r, g, b]
  | .rgba r g b a    => [0xFF, r, g, b, a]
  | .endMarker       => Config.endMarker
  | .header w h c cs => encodeHeader w h c cs

/-! ## An instruction as one number -/

/-- The bytes of a number, its low byte first: bit 0 is the least significant bit of the first byte. -/
def bytesLowFirst (count w : Nat) : List Byte :=
  (List.range count).map fun j => BitVec.ofNat 8 (w >>> (8 * j))

/-- The bytes of a number, its high byte first. -/
def bytesHighFirst (count w : Nat) : List Byte := (bytesLowFirst count w).reverse

/-- The magic's four bytes as one number, the first byte the most significant (as the table prints HEADER's
fixed bits) or the least. -/
def isMagic (w : Nat) : Bool := w == 0x716F6966 || w == 0x66696F71

/-- Which position a word of the table has: by the length of its row (30_encoding.md R77). HEADER's fixed
bits alone are 32, as many as an RGB chunk has, and are told from it by their value (log entry 11). -/
def positionOfWord (nbits w : Nat) : Position :=
  if nbits = 112 then .header
  else if nbits = 64 then .marker
  else if nbits = 32 && isMagic w then .header
  else .chunk

/-- The table writes the fixed bits of HEADER and of END as ONE number with the first byte its most
significant (the magic is 0x716F6966, the marker 1), where every other row's first byte holds bits 7..0.
A word written that way is laid out as the hardware stores it (log entry 11). -/
def bytesAsTablePrints (p : Position) (w : Nat) : List Byte :=
  match p with
  | .header => bytesHighFirst 4 w ++ (bytesLowFirst 14 w).drop 4
  | .chunk  => bytesLowFirst 5 w
  | .marker => bytesHighFirst 8 w

/-- The longest instruction of a position, in bytes (30_encoding.md R77). -/
def Position.bytes : Position → Nat
  | .header => 14
  | .chunk  => 5
  | .marker => 8

/-- Whether bytes decode at a position. -/
def decodes (p : Position) (bytes : List Byte) : Bool :=
  match decode p bytes with
  | .ok _    => true
  | .error _ => false

/-- The bytes an instruction of `nbits` bits `w` has in the stream, zeros above `nbits`: bit 0 is the
least significant bit of the first byte; where that is no instruction, as the table prints the row. -/
def tableBytes (nbits w : Nat) : List Byte :=
  let p := positionOfWord nbits w
  let w := w % 2 ^ nbits
  let plain := bytesLowFirst p.bytes w
  if decodes p plain then plain else bytesAsTablePrints p w

/-- The instruction the decoder reads from a word of the opcode table. -/
def decodeTableWord (nbits w : Nat) : Option Instr :=
  match decode (positionOfWord nbits w) (tableBytes nbits w) with
  | .ok (i, _) => some i
  | .error _   => none

end Sys2Proof
end

