-- ==== Sys2Proof/Machine/State.lean ====
section
/-! DEFINITION. The state of the machine: ENC, DEC, their buffers, and the host's pending moves; the
faults and refusals; the state after reset. -/

namespace Sys2Proof.Machine

/-- The error kinds (60_exceptions.md R142, R143). -/
inductive ErrKind where
  | none
  | validation
  | format
  | truncatedStream
  | pixelCountMismatch
  deriving DecidableEq, Repr

/-- The control state of ENC (10_state.md R33). -/
inductive EncPhase where
  | idle
  | pixels
  | finish
  | done
  | error
  deriving DecidableEq, Repr

/-- The control state of DEC (10_state.md R42). -/
inductive DecPhase where
  | idle
  | stream
  | done
  | error
  deriving DecidableEq, Repr

/-- The header record (10_state.md R35, R44; 00_scope.md §5). The magic is constant and not held. -/
structure Header where
  W  : U32
  H  : U32
  C  : Byte
  CS : Byte
  deriving DecidableEq, Repr

/-- A byte space: (address, byte) cells, addresses strictly rising (`Memory.wf`). An unlisted address
has no value (log entry 6). -/
abbrev Memory := List Host.Cell

/-- A byte sequence that the host hands over: its length, and its bytes at offsets 0..len-1
(20_memory.md R58). -/
structure Buffer where
  len   : Nat
  cells : Memory
  deriving DecidableEq, Repr

/-- The encoder (10_state.md §3), with its two buffers. `errors` is the model's own (log entry 2). -/
structure Enc where
  phase  : EncPhase
  err    : ErrKind
  hdr    : Header
  k      : Nat
  oc     : Nat
  prev   : Pixel
  run    : Nat
  cache  : Cache
  pb     : Buffer
  ob     : Memory
  errors : Nat
  deriving DecidableEq, Repr

/-- The decoder (10_state.md §4), with its two buffers. `errors` is the model's own (log entry 2). -/
structure Dec where
  phase  : DecPhase
  err    : ErrKind
  hdr    : Header
  N      : Nat
  pos    : Nat
  n      : Nat
  prev   : Pixel
  run    : Nat
  cache  : Cache
  ib     : Buffer
  po     : Memory
  errors : Nat
  deriving DecidableEq, Repr

/-- The two units that hold state (10_state.md R27). -/
inductive UnitName where
  | enc
  | dec
  deriving DecidableEq, Repr

/-- The four byte spaces (20_memory.md R58). -/
inductive Space where
  | pb
  | ob
  | ib
  | po
  deriving DecidableEq, Repr

/-- DEC's header accessors (40_header_codec.md R101). -/
inductive Accessor where
  | width
  | height
  | channels
  | colorspace
  deriving DecidableEq, Repr

/-- The complete command set (60_exceptions.md R152). Header operands are natural numbers
(10_state.md R30). -/
inductive Command where
  | encStart (w h c cs : Nat) (pb : List Byte)
  | decStart (ib : List Byte)
  | encodeHeader (w h c cs : Nat)
  | decodeHeader (bytes : List Byte)
  | readPhase (u : UnitName)
  | readErr (u : UnitName)
  | readOB
  | readAccessor (f : Accessor)
  | readPO
  deriving DecidableEq, Repr

/-- What a command returns to the host (60_exceptions.md R152). -/
inductive Reply where
  /-- Bytes: `encodeHeader`, `OB[0..oc-1]`, `PO`. -/
  | bytes (bs : List Byte)
  /-- `decodeHeader`'s record. -/
  | header (h : Header)
  /-- `decodeHeader`'s error. -/
  | error (e : ErrKind)
  | encPhase (p : EncPhase)
  | decPhase (p : DecPhase)
  /-- The `err` register, as its code (60_exceptions.md R143). -/
  | errCode (code : Nat)
  /-- A header field, as a number. -/
  | field (v : Nat)
  /-- A read before DONE gives no result (70_reset_and_hazards.md R168; log entry 9). -/
  | noResult
  deriving DecidableEq, Repr

/-- One move of an agent. -/
inductive Move where
  | host (c : Command)
  | enc
  | dec
  deriving DecidableEq, Repr

/-- The machine. `agenda` says which agent moves next, and `reply` holds what the last command that
returns a value returned; both are the model's own (log entries 3 and 9). `params` is no state of the
hardware (log entry 5). -/
structure State where
  enc    : Enc
  dec    : Dec
  params : Config.Params
  agenda : List Move
  reply  : Option Reply
  deriving DecidableEq, Repr

/-- Why the machine stops with a fault. -/
inductive Fault where
  /-- A read of a byte that does not exist: an input byte outside its buffer, an output byte that
  nothing has written. Raised by PixIn, by DEC's fetch and by the host's reads of OB and PO. SAFE: the
  spec gives such a read no value, and no state that meets `State.Inv` reaches it. -/
  | noByte (b : Space) (addr : Nat)
  deriving DecidableEq, Repr

/-- Why the machine gives a move no meaning. -/
inductive Refusal where
  /-- An instruction that has no meaning yet, by its mnemonic. Raised by no arm of `exec`. SAFE. -/
  | notModelled (mnemonic : String)
  /-- A start command to a unit that is in a pass: "not a move of the model" (41_encoder.md R103,
  42_decoder.md R123, 93_implementation_defined.md U6). Raised by the host's start commands. SAFE. -/
  | startWhileBusy (u : UnitName)
  /-- `encodeHeader` of a field that does not fit its wire width: "refused at the interface"
  (40_header_codec.md R97, U9). Raised by the host's `encodeHeader`. SAFE. -/
  | headerFieldTooWide
  deriving DecidableEq, Repr

/-- A header register that no pass has written (log entry 1). -/
def Header.unwritten : Header := ⟨0, 0, 0, 0⟩

/-- A buffer operand that no start command has handed over. -/
def Buffer.empty : Buffer := ⟨0, []⟩

/-- ENC after power-on: IDLE and NONE (10_state.md R57, R160); the rest as log entry 1 names it. -/
def Enc.reset : Enc where
  phase := .idle
  err := .none
  hdr := Header.unwritten
  k := 0
  oc := 0
  prev := Pixel.seed
  run := 0
  cache := Cache.cleared
  pb := Buffer.empty
  ob := []
  errors := 0

/-- DEC after power-on: IDLE and NONE (10_state.md R57, R160); the rest as log entry 1 names it. -/
def Dec.reset : Dec where
  phase := .idle
  err := .none
  hdr := Header.unwritten
  N := 0
  pos := 0
  n := 0
  prev := Pixel.seed
  run := 0
  cache := Cache.cleared
  ib := Buffer.empty
  po := []
  errors := 0

/-- The machine right after power-on reset (70_reset_and_hazards.md R160). -/
def State.reset : State where
  enc := Enc.reset
  dec := Dec.reset
  params := Config.Params.default
  agenda := []
  reply := none

end Sys2Proof.Machine
end

