-- ==== Sys2Proof/Machine/Flags.lean ====
section
/-! DEFINITION. Status. The units have no flags (10_state.md R53): the only status is `phase` and `err`. -/

namespace Sys2Proof.Machine

/-- The numeric error codes (60_exceptions.md R143). -/
def ErrKind.code : ErrKind → Nat
  | .none               => 0
  | .validation         => 1
  | .format             => 2
  | .truncatedStream    => 3
  | .pixelCountMismatch => 4

/-- ENC is in a pass: a start command is not accepted (41_encoder.md R103). -/
def Enc.busy (e : Enc) : Bool :=
  match e.phase with
  | .pixels => true
  | .finish => true
  | .idle   => false
  | .done   => false
  | .error  => false

/-- DEC is in a pass: a start command is not accepted (42_decoder.md R123). -/
def Dec.busy (d : Dec) : Bool :=
  match d.phase with
  | .stream => true
  | .idle   => false
  | .done   => false
  | .error  => false

end Sys2Proof.Machine
end

