-- ==== Sys2Proof/Machine/Operands.lean ====
section
/-! DEFINITION. The arithmetic of pixels: wrap-around, the colour-cache hash, deltas between pixels and
their reconstruction. -/

namespace Sys2Proof.Machine

/-- The mathematical modulus 256 of any integer (00_scope.md R20). -/
def wrap8 (x : Int) : Byte := BitVec.ofInt 8 x

/-- Modulo 256, mapped into -128..127 (00_scope.md R20). -/
def s8 (x : Int) : Int :=
  let u : Int := (wrap8 x).toNat
  if u ≥ 128 then u - 256 else u

/-- The slot index of a pixel (10_state.md R51). -/
def hash (p : Pixel) : Fin 64 :=
  ⟨(p.r.toNat * 3 + p.g.toNat * 5 + p.b.toNat * 7 + p.a.toNat * 11) % 64, Nat.mod_lt _ (by decide)⟩

/-- `cache[i]` (00_scope.md R22). -/
def Cache.slot (c : Cache) (i : Fin 64) : Pixel := Vector.get c i

/-- `cache[i] <- p` (00_scope.md R22). -/
def Cache.write (c : Cache) (i : Fin 64) (p : Pixel) : Cache := Vector.set c i.val p i.isLt

/-- The delta of one channel from `prev` to `p` (41_encoder.md R111). -/
def delta (p prev : Byte) : Int := s8 ((p.toNat : Int) - prev.toNat)

/-- A channel from a delta: `wrap8(prev.c + d)` (30_encoding.md R89). -/
def addDelta (prev : Byte) (d : Int) : Byte := wrap8 ((prev.toNat : Int) + d)

/-- The pixel that the three deltas give; alpha is `prev`'s (42_decoder.md R129, R130). -/
def applyDeltas (prev : Pixel) (dr dg db : Int) : Pixel :=
  ⟨addDelta prev.r dr, addDelta prev.g dg, addDelta prev.b db, prev.a⟩

/-- The pixel count T, an exact natural number (00_scope.md R15; 10_state.md R36, R45). -/
def Header.pixels (h : Header) : Nat := h.W.toNat * h.H.toNat

/-- The stride C of a pixel buffer, in bytes (10_state.md R54). -/
def Header.stride (h : Header) : Nat := h.C.toNat

/-- ENC's derived value T (10_state.md R36). -/
def Enc.T (e : Enc) : Nat := e.hdr.pixels

/-- DEC's derived value T (10_state.md R45). -/
def Dec.T (d : Dec) : Nat := d.hdr.pixels

/-- The encoder's header domain (40_header_codec.md R99). -/
def validEncHeader (w h c cs : Nat) : Bool :=
  decide (1 ≤ w ∧ w ≤ 4294967294 ∧ 1 ≤ h ∧ h ≤ 4294967294 ∧ (c = 3 ∨ c = 4) ∧ (cs = 0 ∨ cs = 1))

/-- The field values a header may have (40_header_codec.md R98, 30_encoding.md R92). -/
def legalFields (c cs : Byte) : Bool := decide ((c = 3 ∨ c = 4) ∧ (cs = 0 ∨ cs = 1))

/-- The header fields as the accessors read them (10_state.md R31, R44; 40_header_codec.md R101). -/
def Header.field (h : Header) : Accessor → Nat
  | .width      => h.W.toNat
  | .height     => h.H.toNat
  | .channels   => h.C.toNat
  | .colorspace => h.CS.toNat

end Sys2Proof.Machine
end

