-- ==== Sys2Proof/Machine/Ops.lean ====
section
/-! DEFINITION. The shared operations: byte spaces, buffers, error entry, the start of a pass, ENC's
sequential output, DEC's pixel output and new-pixel update. -/

namespace Sys2Proof.Machine

/-! ## Byte spaces (20_memory.md) -/

/-- The canonical form: addresses strictly rising. An unlisted address has no value, so no listed byte
equals what an unlisted address reads as. -/
abbrev Memory.wf (m : Memory) : Prop := m.Pairwise (·.1 < ·.1)

/-- The byte at an address, if there is one. -/
def Memory.read (m : Memory) (a : Nat) : Option Byte :=
  match m with
  | [] => none
  | (b, v) :: rest => if a = b then some v else Memory.read rest a

/-- One byte written. Canonical forms stay canonical. -/
def Memory.write (m : Memory) (a : Nat) (v : Byte) : Memory :=
  match m with
  | [] => [(a, v)]
  | (b, w) :: rest =>
    if a < b then (a, v) :: (b, w) :: rest
    else if a = b then (a, v) :: rest
    else (b, w) :: Memory.write rest a v

/-- `MemRead` of `n` bytes (00_scope.md R23): none if one of them does not exist. -/
def Memory.readBytes (m : Memory) (a n : Nat) : Option (List Byte) :=
  match n with
  | 0 => some []
  | n + 1 => do
    let b ← Memory.read m a
    let bs ← Memory.readBytes m (a + 1) n
    return b :: bs

/-- `MemWrite` of bytes (00_scope.md R23), the first at the lowest address. -/
def Memory.writeBytes (m : Memory) (a : Nat) (bs : List Byte) : Memory :=
  match bs with
  | [] => m
  | b :: bs => Memory.writeBytes (Memory.write m a b) (a + 1) bs

/-- A canonical memory from cells in any order; the last of an address holds. -/
def Memory.ofCells (cells : List Host.Cell) : Memory :=
  cells.foldl (fun m c => Memory.write m c.1 c.2) []

/-- A byte sequence as a buffer, its bytes at offsets 0 on (20_memory.md R58). -/
def Buffer.ofBytes (bs : List Byte) : Buffer := ⟨bs.length, Memory.writeBytes [] 0 bs⟩

/-- `MemRead` from an input buffer (00_scope.md R23). -/
def Buffer.read (b : Buffer) (a n : Nat) : Option (List Byte) := Memory.readBytes b.cells a n

/-! ## Error entry (60_exceptions.md R149) -/

/-- `raise e` in ENC: `err` gets the kind and `phase` gets ERROR. What the other registers and OB then
hold is unspecified (R146, 93_implementation_defined.md U2): free values, fresh ones for each error (log
entry 2). The operand is the host's and stays. -/
def raiseEnc (e : ErrKind) (s : Enc) : Enc :=
  let left := Config.encLeft s.errors
  { s with
    phase := .error
    err := e
    hdr := ⟨left.W, left.H, left.C, left.CS⟩
    k := left.k
    oc := left.oc
    prev := left.prev
    run := left.run
    cache := left.cache
    ob := Memory.ofCells left.ob
    errors := s.errors + 1 }

/-- `raise e` in DEC: as `raiseEnc`. -/
def raiseDec (e : ErrKind) (s : Dec) : Dec :=
  let left := Config.decLeft s.errors
  { s with
    phase := .error
    err := e
    hdr := ⟨left.W, left.H, left.C, left.CS⟩
    N := left.N
    pos := left.pos
    n := left.n
    prev := left.prev
    run := left.run
    cache := left.cache
    po := Memory.ofCells left.po
    errors := s.errors + 1 }

/-! ## The start of a pass -/

/-- ENC's rolling state is initialised (70_reset_and_hazards.md R162, 41_encoder.md R102), and OB is
handed over empty (R166). -/
def initEnc (hdr : Header) (s : Enc) : Enc :=
  { s with
    err := .none
    hdr := hdr
    k := 0
    oc := 0
    prev := Pixel.seed
    run := 0
    cache := Cache.cleared
    ob := [] }

/-- DEC latches the header and the length of IB, and its rolling state is initialised
(42_decoder.md R122). PO is handed over empty (70_reset_and_hazards.md R166). -/
def initDec (hdr : Header) (s : Dec) : Dec :=
  { s with
    phase := .stream
    err := .none
    hdr := hdr
    N := s.ib.len
    pos := Config.headerBytes
    n := 0
    prev := Pixel.seed
    run := 0
    cache := Cache.cleared
    po := [] }

/-! ## ENC's input and output -/

/-- `Emit`: ENC's sequential output (00_scope.md R23). -/
def emit (bs : List Byte) (s : Enc) : Enc :=
  { s with ob := Memory.writeBytes s.ob s.oc bs, oc := s.oc + bs.length }

/-- `PixIn(k)`: pixel `k` of PB with stride C; alpha is 255 when there is no alpha byte
(41_encoder.md R104, 20_memory.md R66). None if a byte lies outside PB. -/
def pixIn (s : Enc) (k : Nat) : Option Pixel :=
  if s.hdr.C = 4 then
    match s.pb.read (k * s.hdr.stride) 3, s.pb.read (k * s.hdr.stride + 3) 1 with
    | some [r, g, b], some [a] => some ⟨r, g, b, a⟩
    | _, _ => none
  else
    match s.pb.read (k * s.hdr.stride) 3 with
    | some [r, g, b] => some ⟨r, g, b, 255⟩
    | _ => none

/-! ## DEC's cursor and output -/

/-- The cursor moves past a chunk (42_decoder.md R135). -/
def advance (len : Nat) (s : Dec) : Dec := { s with pos := s.pos + len }

/-- `PixOut`: pixel number `n` written to PO with stride C, alpha dropped unless C = 4, and counted
(42_decoder.md R124, 20_memory.md R66). -/
def pixOut (p : Pixel) (s : Dec) : Dec :=
  let base := s.n * s.hdr.stride
  let po := Memory.writeBytes s.po base [p.r, p.g, p.b]
  { s with
    po := if s.hdr.C = 4 then Memory.writeBytes po (base + 3) [p.a] else po
    n := s.n + 1 }

/-- The new-pixel update: cache, then `prev`, then output (42_decoder.md R125). -/
def newPixel (p : Pixel) (s : Dec) : Dec :=
  pixOut p { s with cache := Cache.write s.cache (hash p) p, prev := p }

end Sys2Proof.Machine
end

