-- ==== Sys2Proof/Machine/Chunks.lean ====
section
/-! DEFINITION. What DEC does on each chunk (42_decoder.md R128 to R133), and the repeat step (R134).
A meaning is the chunk rule alone; `decMove` makes the choice of R126 before it (log entry 7). -/

namespace Sys2Proof.Machine

/-- INDEX (42_decoder.md R128; 90_conflicts.md C2: `prev` is set, the slot is not written). -/
def execIndex (idx : Fin 64) (s : State) : Host.Outcome State Fault Refusal :=
  let px := Cache.slot s.dec.cache idx
  .next { s with dec := pixOut px { advance 1 s.dec with prev := px } }

/-- DIFF (42_decoder.md R129). -/
def execDiff (dr dg db : Int) (s : State) : Host.Outcome State Fault Refusal :=
  .next { s with dec := newPixel (applyDeltas s.dec.prev dr dg db) (advance 1 s.dec) }

/-- LUMA (42_decoder.md R130): the red and blue deltas are relative to the green one. -/
def execLuma (dg drg dbg : Int) (s : State) : Host.Outcome State Fault Refusal :=
  if s.dec.N < s.dec.pos + 2 then
    .next { s with dec := raiseDec .format s.dec }
  else
    .next { s with dec := newPixel (applyDeltas s.dec.prev (drg + dg) dg (dbg + dg)) (advance 2 s.dec) }

/-- RGB (42_decoder.md R131): alpha is inherited. -/
def execRgb (r g b : Byte) (s : State) : Host.Outcome State Fault Refusal :=
  if s.dec.N < s.dec.pos + 4 then
    .next { s with dec := raiseDec .format s.dec }
  else
    .next { s with dec := newPixel ⟨r, g, b, s.dec.prev.a⟩ (advance 4 s.dec) }

/-- RGBA (42_decoder.md R132). -/
def execRgba (r g b a : Byte) (s : State) : Host.Outcome State Fault Refusal :=
  if s.dec.N < s.dec.pos + 5 then
    .next { s with dec := raiseDec .format s.dec }
  else
    .next { s with dec := newPixel ⟨r, g, b, a⟩ (advance 5 s.dec) }

/-- RUN (42_decoder.md R133): `n > T - s.n` in integers. The repeats are written by `repeatPixel`. -/
def execRun (n : Nat) (s : State) : Host.Outcome State Fault Refusal :=
  if s.dec.T < s.dec.n + n then
    .next { s with dec := raiseDec .pixelCountMismatch s.dec }
  else
    .next { s with dec := { advance 1 s.dec with run := n } }

/-- One pending repeat of `prev` (42_decoder.md R134). -/
def repeatPixel (s : Dec) : Dec := { pixOut s.prev s with run := s.run - 1 }

end Sys2Proof.Machine
end

