-- ==== Sys2Proof/Machine/Framing.lean ====
section
/-! DEFINITION. What DEC does on the header (42_decoder.md R122) and on the end marker (R136), and HDR's
`decodeHeader` (40_header_codec.md R98). -/

namespace Sys2Proof.Machine

/-- HEADER: DEC's start step on its operand IB (42_decoder.md R122), with the checks of `decodeHeader`
that the decoder leaves (40_header_codec.md R98). -/
def execHeader (w h : U32) (c cs : Byte) (s : State) : Host.Outcome State Fault Refusal :=
  if s.dec.ib.len < Config.headerBytes ∨ legalFields c cs = false then
    .next { s with dec := raiseDec .format s.dec }
  else
    .next { s with dec := initDec ⟨w, h, c, cs⟩ s.dec }

/-- The end check once the marker is read, under a TRAILING_BYTES (42_decoder.md R136). -/
def endOfStream (trailing : Config.TrailingBytes) (s : Dec) : Dec :=
  if s.N < s.pos + 8 then raiseDec .format s
  else if s.pos + 8 ≠ s.N ∧ trailing = .reject then raiseDec .format (advance 8 s)
  else { advance 8 s with phase := .done }

/-- END (42_decoder.md R136). -/
def execEndMarker (s : State) : Host.Outcome State Fault Refusal :=
  .next { s with dec := endOfStream s.params.trailing s.dec }

/-- HDR's `decodeHeader`: a record, or none where it raises FormatError (40_header_codec.md R98). -/
def decodeHeader (bytes : List Byte) : Option Header :=
  match decode .header bytes with
  | .ok (.header w h c cs, _) => if legalFields c cs then some ⟨w, h, c, cs⟩ else none
  | _ => none

end Sys2Proof.Machine
end

