-- ==== Sys2Proof/Machine/Encoder.lean ====
section
/-! DEFINITION. ENC: its start step, its pixel step and its finish step (41_encoder.md). -/

namespace Sys2Proof.Machine

/-- ENC's start step once its operand is in place (41_encoder.md R102). -/
def encStart (w h c cs : Nat) (s : Enc) : Enc :=
  if validEncHeader w h c cs = false then raiseEnc .validation s
  else if s.pb.len ≠ w * h * c then raiseEnc .validation s
  else
    let hdr : Header := ⟨BitVec.ofNat 32 w, BitVec.ofNat 32 h, BitVec.ofNat 8 c, BitVec.ofNat 8 cs⟩
    { emit (encode (.header hdr.W hdr.H hdr.C hdr.CS)) (initEnc hdr s) with phase := .pixels }

/-- All three deltas fit DIFF (41_encoder.md R112). -/
def fitsDiff (dr dg db : Int) : Bool :=
  decide (inRange (-2) 1 dr ∧ inRange (-2) 1 dg ∧ inRange (-2) 1 db)

/-- The deltas fit LUMA: the differences are plain integers (41_encoder.md R113, R118). -/
def fitsLuma (dr dg db : Int) : Bool :=
  decide (inRange (-32) 31 dg ∧ inRange (-8) 7 (dr - dg) ∧ inRange (-8) 7 (db - dg))

/-- DIFF, LUMA, RGB or RGBA for a pixel that is not in its slot (41_encoder.md R111 to R115). -/
def literalFor (p prev : Pixel) : Instr :=
  if p.a = prev.a then
    let dr := delta p.r prev.r
    let dg := delta p.g prev.g
    let db := delta p.b prev.b
    if fitsDiff dr dg db then .diff dr dg db
    else if fitsLuma dr dg db then .luma dg (dr - dg) (db - dg)
    else .rgb p.r p.g p.b
  else .rgba p.r p.g p.b p.a

/-- A pending run becomes a RUN chunk (41_encoder.md R108, R117). -/
def flushRun (s : Enc) : Enc :=
  if 0 < s.run then { emit (encode (.run s.run)) s with run := 0 } else s

/-- A pixel that differs from `prev`, once the run is flushed: INDEX without a cache write, or the cache
write and one other chunk (41_encoder.md R109, R110). -/
def codePixel (p : Pixel) (s : Enc) : Enc :=
  if Cache.slot s.cache (hash p) = p then emit (encode (.index (hash p))) s
  else emit (encode (literalFor p s.prev)) { s with cache := Cache.write s.cache (hash p) p }

/-- `ENC_PIXEL(p)`: run continuation (R106), run saturation (R107), or flush (R108) and chunk; then
`prev` (R116) (41_encoder.md R105). -/
def encPixel (p : Pixel) (s : Enc) : Enc :=
  let coded :=
    if p = s.prev ∧ s.run < Config.runMax then { s with run := s.run + 1 }
    else if p = s.prev then { emit (encode (.run Config.runMax)) s with run := 1 }
    else codePixel p (flushRun s)
  { coded with prev := p }

/-- One step in phase PIXELS, on the pixel read (41_encoder.md R105). -/
def encPixelStep (p : Pixel) (s : Enc) : Enc :=
  let coded := encPixel p s
  { coded with
    k := s.k + 1
    phase := if s.k + 1 = s.T then .finish else .pixels }

/-- `ENC_FINISH` (41_encoder.md R117). -/
def encFinish (s : Enc) : Enc :=
  { emit (encode .endMarker) (flushRun s) with phase := .done }

end Sys2Proof.Machine
end

