-- ==== Sys2Proof/Machine/Fetch.lean ====
section
/-! DEFINITION. Fetching: what DEC finds at its cursor, and how an instruction is placed where the next
step fetches it. -/

namespace Sys2Proof.Machine

/-- What a fetch gives: an instruction, an error to raise, or a byte that does not exist. -/
inductive Fetched where
  | instr (i : Instr)
  | raise (e : ErrKind)
  | fault (f : Fault)
  deriving DecidableEq, Repr

/-- The error kind of a stream that does not decode (60_exceptions.md R143, R148). -/
def errorOf : DecodeError → ErrKind
  | .noBytes     => .truncatedStream
  | .cutOff _    => .format
  | .shortMarker => .format
  | .badMarker   => .format
  | .shortHeader => .format
  | .badMagic    => .format

/-- The instruction in bytes that were read at a position. -/
def fetched (p : Position) (bytes : List Byte) : Fetched :=
  match decode p bytes with
  | .ok (i, _) => .instr i
  | .error e   => .raise (errorOf e)

/-- The chunk at the cursor: its first byte decides how many bytes are read, as far as there are any
(42_decoder.md R126, R127; 20_memory.md R68). -/
def fetchChunk (s : Dec) : Fetched :=
  if s.pos = s.N then fetched .chunk []
  else match s.ib.read s.pos 1 with
    | some [b0] =>
      match s.ib.read s.pos (min (chunkKind b0).length (s.N - s.pos)) with
      | some bytes => fetched .chunk bytes
      | none => .fault (.noByte .ib (s.pos + 1))
    | _ => .fault (.noByte .ib s.pos)

/-- The end marker at the cursor, as far as there are bytes (42_decoder.md R136). -/
def fetchMarker (s : Dec) : Fetched :=
  match s.ib.read s.pos (min 8 (s.N - s.pos)) with
  | some bytes => fetched .marker bytes
  | none => .fault (.noByte .ib s.pos)

/-- The header at offset 0 of the operand, as far as there are bytes (42_decoder.md R122). -/
def fetchHeader (s : Dec) : Fetched :=
  match s.ib.read 0 (min Config.headerBytes s.ib.len) with
  | some bytes => fetched .header bytes
  | none => .fault (.noByte .ib 0)

/-- DEC in a pass, at the first chunk of an image of 62 pixels, with the given bytes as its chunk
stream. `prev`, `cache` and PO stay. -/
def placeChunk (bytes : List Byte) (s : Dec) : Dec :=
  let stream := encodeHeader 62 1 4 0 ++ bytes
  { s with
    phase := .stream
    hdr := ⟨62, 1, 4, 0⟩
    ib := Buffer.ofBytes stream
    N := stream.length
    pos := Config.headerBytes
    n := 0
    run := 0 }

/-- DEC in a pass, after the last pixel (of an image of none), with the given bytes as the rest of its
stream. -/
def placeMarker (bytes : List Byte) (s : Dec) : Dec :=
  let stream := encodeHeader 0 1 4 0 ++ bytes
  { s with
    phase := .stream
    hdr := ⟨0, 1, 4, 0⟩
    ib := Buffer.ofBytes stream
    N := stream.length
    pos := Config.headerBytes
    n := 0
    run := 0 }

/-- The state whose next step fetches and runs the instruction with these bytes: DEC's own move for a
chunk and for the marker, the host's start command for a header (log entry 12). -/
def placeInstr (p : Position) (bytes : List Byte) (s : State) : State :=
  match p with
  | .chunk  => { s with dec := placeChunk bytes s.dec, agenda := .dec :: s.agenda }
  | .marker => { s with dec := placeMarker bytes s.dec, agenda := .dec :: s.agenda }
  | .header =>
    { s with
      dec := { s.dec with phase := if s.dec.busy then .idle else s.dec.phase }
      agenda := .host (.decStart bytes) :: s.agenda }

end Sys2Proof.Machine
end

