-- ==== Sys2Proof/Machine/Moves.lean ====
section
/-! DEFINITION. The moves of the agents: DEC's stream step (42_decoder.md R126), ENC's steps
(41_encoder.md R105, R117), and the host's commands (60_exceptions.md R152). -/

namespace Sys2Proof.Machine

/-- What DEC does with what it fetched: the instruction's meaning, or error entry. -/
def runFetched (f : Fetched) (s : State) : Host.Outcome State Fault Refusal :=
  match f with
  | .instr i => exec i s
  | .raise e => .next { s with dec := raiseDec e s.dec }
  | .fault f => .fault f

/-- `DEC_STEP`: a pending repeat, or a chunk, or the end check, tested in this order
(42_decoder.md R126). -/
def streamStep (s : State) : Host.Outcome State Fault Refusal :=
  if 0 < s.dec.run then .next { s with dec := repeatPixel s.dec }
  else if s.dec.n < s.dec.T then runFetched (fetchChunk s.dec) s
  else runFetched (fetchMarker s.dec) s

/-- DEC's move. Outside a pass it keeps its registers (60_exceptions.md R159). -/
def decMove (s : State) : Host.Outcome State Fault Refusal :=
  match s.dec.phase with
  | .stream => streamStep s
  | .idle   => .next s
  | .done   => .next s
  | .error  => .next s

/-- ENC's move. Outside a pass it keeps its registers (60_exceptions.md R159). -/
def encMove (s : State) : Host.Outcome State Fault Refusal :=
  match s.enc.phase with
  | .pixels =>
    match pixIn s.enc s.enc.k with
    | some p => .next { s with enc := encPixelStep p s.enc }
    | none   => .fault (.noByte .pb (s.enc.k * s.enc.hdr.stride))
  | .finish => .next { s with enc := encFinish s.enc }
  | .idle   => .next s
  | .done   => .next s
  | .error  => .next s

/-- `ENC.start(hdr_in, PB)`: accepted outside a pass (41_encoder.md R102, R103). -/
def hostEncStart (w h c cs : Nat) (pb : List Byte) (s : State) : Host.Outcome State Fault Refusal :=
  if s.enc.busy then .refused (.startWhileBusy .enc)
  else .next { s with enc := encStart w h c cs { s.enc with pb := Buffer.ofBytes pb } }

/-- `DEC.start(IB)`: accepted outside a pass; the operand is handed over and its header runs
(42_decoder.md R122, R123). -/
def hostDecStart (ib : List Byte) (s : State) : Host.Outcome State Fault Refusal :=
  if s.dec.busy then .refused (.startWhileBusy .dec)
  else
    let s := { s with dec := { s.dec with ib := Buffer.ofBytes ib } }
    runFetched (fetchHeader s.dec) s

/-- The host gets a value. -/
def answer (r : Reply) (s : State) : Host.Outcome State Fault Refusal := .next { s with reply := some r }

/-- HDR's `encodeHeader`: a field that does not fit its wire width is refused (40_header_codec.md R97). -/
def hostEncodeHeader (w h c cs : Nat) (s : State) : Host.Outcome State Fault Refusal :=
  if w < 2 ^ 32 ∧ h < 2 ^ 32 ∧ c < 2 ^ 8 ∧ cs < 2 ^ 8 then
    answer (.bytes (encodeHeader (BitVec.ofNat 32 w) (BitVec.ofNat 32 h) (BitVec.ofNat 8 c)
      (BitVec.ofNat 8 cs))) s
  else .refused .headerFieldTooWide

/-- HDR's `decodeHeader` (40_header_codec.md R98). -/
def hostDecodeHeader (bytes : List Byte) (s : State) : Host.Outcome State Fault Refusal :=
  match decodeHeader bytes with
  | some h => answer (.header h) s
  | none   => answer (.error .format) s

/-- Reading `phase`: always (10_state.md R30; 60_exceptions.md R152). -/
def hostReadPhase (u : UnitName) (s : State) : Host.Outcome State Fault Refusal :=
  match u with
  | .enc => answer (.encPhase s.enc.phase) s
  | .dec => answer (.decPhase s.dec.phase) s

/-- Reading `err`: always (60_exceptions.md R143, R152). -/
def hostReadErr (u : UnitName) (s : State) : Host.Outcome State Fault Refusal :=
  match u with
  | .enc => answer (.errCode s.enc.err.code) s
  | .dec => answer (.errCode s.dec.err.code) s

/-- Reading `OB[0..oc-1]`: a result only at DONE (20_memory.md R72; 70_reset_and_hazards.md R168). -/
def hostReadOB (s : State) : Host.Outcome State Fault Refusal :=
  if s.enc.phase = .done then
    match Memory.readBytes s.enc.ob 0 s.enc.oc with
    | some bs => answer (.bytes bs) s
    | none    => .fault (.noByte .ob 0)
  else answer .noResult s

/-- Reading a header accessor: a result only at DONE (60_exceptions.md R152; 92_eei_decisions.md D24). -/
def hostReadAccessor (f : Accessor) (s : State) : Host.Outcome State Fault Refusal :=
  if s.dec.phase = .done then answer (.field (s.dec.hdr.field f)) s
  else answer .noResult s

/-- Reading `PO[0..T*C-1]`: a result only at DONE (42_decoder.md R137). -/
def hostReadPO (s : State) : Host.Outcome State Fault Refusal :=
  if s.dec.phase = .done then
    match Memory.readBytes s.dec.po 0 (s.dec.T * s.dec.hdr.stride) with
    | some bs => answer (.bytes bs) s
    | none    => .fault (.noByte .po 0)
  else answer .noResult s

/-- A command of the host (60_exceptions.md R152). -/
def hostMove (c : Command) (s : State) : Host.Outcome State Fault Refusal :=
  match c with
  | .encStart w h c cs pb   => hostEncStart w h c cs pb s
  | .decStart ib            => hostDecStart ib s
  | .encodeHeader w h c cs  => hostEncodeHeader w h c cs s
  | .decodeHeader bytes     => hostDecodeHeader bytes s
  | .readPhase u            => hostReadPhase u s
  | .readErr u              => hostReadErr u s
  | .readOB                 => hostReadOB s
  | .readAccessor f         => hostReadAccessor f s
  | .readPO                 => hostReadPO s

/-- The move of the agent that the agenda names. -/
def runMove (m : Move) (s : State) : Host.Outcome State Fault Refusal :=
  match m with
  | .host c => hostMove c s
  | .enc    => encMove s
  | .dec    => decMove s

/-- With nothing on the agenda, a unit that is in a pass goes on, DEC first; the order shows nowhere,
for units share nothing (20_memory.md R71; log entry 3). -/
def freeMove (s : State) : Host.Outcome State Fault Refusal :=
  if s.dec.busy then decMove s else encMove s

end Sys2Proof.Machine
end

