-- ==== Sys2Proof/Machine/Step.lean ====
section
/-! DEFINITION. One step of the machine, and the placing of an instruction word where it is fetched. -/

namespace Sys2Proof.Machine

/-- One step: the agenda's next move, or that of a unit in a pass. -/
def step (s : State) : Host.Outcome State Fault Refusal :=
  match s.agenda with
  | []        => freeMove s
  | m :: rest => runMove m { s with agenda := rest }

/-- `s` with the instruction of a table word where the next step fetches it (log entries 11 and 12). -/
def State.withFetchWord (s : State) (nbits w : Nat) : State :=
  placeInstr (positionOfWord nbits w) (tableBytes nbits w) s

end Sys2Proof.Machine
end

