-- ==== Sys2Proof/Safety.lean ====
section
/-! DEFINITION. What a safe state is (the invariant), and the terms in which the claims say what a step
changes and what it leaves. -/

namespace Sys2Proof.Machine

/-! ## The invariant -/

/-- Exactly the bytes at offsets 0..n-1 are there. -/
abbrev Memory.covers (m : Memory) (n : Nat) : Prop := m.map (·.1) = List.range n

/-- A buffer holds every byte its length promises, and no other. -/
abbrev Buffer.complete (b : Buffer) : Prop := Memory.covers b.cells b.len

/-- ENC holds an accepted image: from the start step to DONE (10_state.md R33). -/
abbrev Enc.accepted (e : Enc) : Prop := e.phase = .pixels ∨ e.phase = .finish ∨ e.phase = .done

/-- DEC holds an accepted header: from the start step to DONE (10_state.md R42). -/
abbrev Dec.accepted (d : Dec) : Prop := d.phase = .stream ∨ d.phase = .done

/-- The rolling state of ENC once an image is accepted: the header is in ENC's domain (R102), PB holds
the image (R102), OB holds exactly the bytes written (R38) and begins with the header (R102), the run
register is in range (R40), a 3-channel image has only alpha 255 (R120), and `prev` is in its slot
unless no pixel has yet differed from the seed (R121). -/
abbrev Enc.rolling (e : Enc) : Prop :=
  e.err = .none ∧
  validEncHeader e.hdr.W.toNat e.hdr.H.toNat e.hdr.C.toNat e.hdr.CS.toNat = true ∧
  e.pb.len = e.T * e.hdr.stride ∧
  Memory.covers e.ob e.oc ∧
  Memory.readBytes e.ob 0 14 = some (encodeHeader e.hdr.W e.hdr.H e.hdr.C e.hdr.CS) ∧
  e.run ≤ 62 ∧
  (e.hdr.C = 3 → e.prev.a = 255) ∧
  (Cache.slot e.cache (hash e.prev) = e.prev ∨ e.prev = Pixel.seed ∧ e.cache = Cache.cleared)

/-- How many bytes ENC has written before the marker: the header, and after it at least one for coded
pixels or a pending run, at most five for each pixel (41_encoder.md R117; 70_reset_and_hazards.md R164). -/
abbrev Enc.outputBounds (e : Enc) : Prop :=
  14 ≤ e.oc ∧ 14 + min e.k 1 ≤ e.oc + min e.run 1 ∧ e.oc + min e.run 1 ≤ 14 + 5 * e.k

/-- The invariant of ENC. -/
abbrev Enc.Inv (e : Enc) : Prop :=
  Memory.wf e.ob ∧
  e.pb.complete ∧
  (e.accepted → e.rolling) ∧
  (e.phase = .pixels → e.k < e.T ∧ e.outputBounds) ∧
  (e.phase = .finish → e.k = e.T ∧ e.outputBounds) ∧
  (e.phase = .done → e.k = e.T ∧ e.run = 0 ∧ 23 ≤ e.oc ∧ e.oc ≤ 22 + 5 * e.T)

/-- The rolling state of DEC once a header is accepted: the header's fields are legal (R44), N is IB's
length (R45), the cursor is past the header and in range (R46), no more pixels are owed to the pending
run than remain (R133), the run register is in range (R49), PO holds exactly the pixels written
(R124). -/
abbrev Dec.rolling (d : Dec) : Prop :=
  d.err = .none ∧
  legalFields d.hdr.C d.hdr.CS = true ∧
  d.N = d.ib.len ∧
  14 ≤ d.pos ∧ d.pos ≤ d.N ∧
  d.n + d.run ≤ d.T ∧
  d.run ≤ 62 ∧
  Memory.covers d.po (d.n * d.hdr.stride)

/-- The invariant of DEC. -/
abbrev Dec.Inv (d : Dec) : Prop :=
  Memory.wf d.po ∧
  d.ib.complete ∧
  (d.accepted → d.rolling) ∧
  (d.phase = .done → d.n = d.T ∧ d.run = 0)

/-- The invariant of the machine; at DONE under `reject`, the whole input is consumed (42_decoder.md
R136). -/
abbrev State.Inv (s : State) : Prop :=
  s.enc.Inv ∧ s.dec.Inv ∧
  (s.params.trailing = .reject → s.dec.phase = .done → s.dec.pos = s.dec.N)

/-! ## Who moves -/

/-- The state in which the move of a step is made: the agenda's first entry is taken off. -/
def State.popped (s : State) : State := { s with agenda := s.agenda.tail }

/-- The next step is DEC's: the agenda names it, or the agenda is empty and DEC is in a pass. -/
abbrev State.decNext (s : State) : Prop :=
  s.agenda.head? = some .dec ∨ s.agenda = [] ∧ s.dec.busy = true

/-- The next step is ENC's: the agenda names it, or the agenda is empty and DEC is in no pass. -/
abbrev State.encNext (s : State) : Prop :=
  s.agenda.head? = some .enc ∨ s.agenda = [] ∧ s.dec.busy = false

/-- The next step is the host's command `c`. -/
abbrev State.hostNext (s : State) (c : Command) : Prop := s.agenda.head? = some (.host c)

/-! ## What a step leaves as it was -/

/-- Everything outside DEC is as before. -/
abbrev onlyDec (s t : State) : Prop := t = { s with dec := t.dec }

/-- Everything outside ENC is as before. -/
abbrev onlyEnc (s t : State) : Prop := t = { s with enc := t.enc }

/-- Status, header, length, operand (and the model's error count) of DEC are as before. -/
abbrev Dec.sameControl (d d' : Dec) : Prop :=
  d'.phase = d.phase ∧ d'.err = d.err ∧ d'.hdr = d.hdr ∧ d'.N = d.N ∧ d'.ib = d.ib ∧ d'.errors = d.errors

/-- Header, operand, `err` (and the model's error count) of ENC are as before. -/
abbrev Enc.sameControl (e e' : Enc) : Prop :=
  e'.err = e.err ∧ e'.hdr = e.hdr ∧ e'.pb = e.pb ∧ e'.errors = e.errors

/-- Nothing is written to PO, and no pixel is counted. -/
def Dec.noPixel (d d' : Dec) : Prop := d'.n = d.n ∧ ∀ a, d'.po.read a = d.po.read a

/-- Pixel number `n` is written at `n * C`, as r, g, b and, when C = 4, a; it is counted; every byte
outside it is as before (42_decoder.md R124, 20_memory.md R66). -/
def Dec.pixelOut (d d' : Dec) (p : Pixel) : Prop :=
  d'.n = d.n + 1 ∧
  d'.po.read (d.n * d.hdr.C.toNat) = some p.r ∧
  d'.po.read (d.n * d.hdr.C.toNat + 1) = some p.g ∧
  d'.po.read (d.n * d.hdr.C.toNat + 2) = some p.b ∧
  (d.hdr.C = 4 → d'.po.read (d.n * d.hdr.C.toNat + 3) = some p.a) ∧
  ∀ a, a < d.n * d.hdr.C.toNat ∨ d.n * d.hdr.C.toNat + (if d.hdr.C = 4 then 4 else 3) ≤ a →
    d'.po.read a = d.po.read a

/-- Slot `hash p` holds `p`, and every other slot is as before (42_decoder.md R125, 41_encoder.md
R110). -/
def slotWritten (old new : Cache) (p : Pixel) : Prop :=
  Cache.slot new (hash p) = p ∧ ∀ i : Fin 64, i ≠ hash p → Cache.slot new i = Cache.slot old i

/-- The new-pixel update of a chunk of `len` bytes: cursor, cache, `prev`, output; everything else of
DEC is as before (42_decoder.md R125, R135). -/
def Dec.newPixelDone (d d' : Dec) (len : Nat) (p : Pixel) : Prop :=
  d.sameControl d' ∧ d'.pos = d.pos + len ∧ d'.run = d.run ∧ d'.prev = p ∧
  slotWritten d.cache d'.cache p ∧ d.pixelOut d' p

/-- ENC's output grew by exactly these bytes (00_scope.md R23). -/
def Enc.emitted (e e' : Enc) (bs : List Byte) : Prop :=
  e'.oc = e.oc + bs.length ∧
  Memory.readBytes e'.ob e.oc bs.length = some bs ∧
  ∀ a, a < e.oc ∨ e.oc + bs.length ≤ a → e'.ob.read a = e.ob.read a

/-- DEC is stopped with an error kind (60_exceptions.md R149). -/
abbrev Dec.stopped (d : Dec) (e : ErrKind) : Prop := d.phase = .error ∧ d.err = e

/-- ENC is stopped with an error kind (60_exceptions.md R149). -/
abbrev Enc.stopped (s : Enc) (e : ErrKind) : Prop := s.phase = .error ∧ s.err = e

/-- The bytes of a pending run as a RUN chunk (41_encoder.md R108), none where no run is pending. -/
def runBytes (run : Nat) : List Byte := if 0 < run then [BitVec.ofNat 8 (192 + (run - 1))] else []

/-- A run of the machine reaches a state with property `P`. -/
def reaches (s : State) (P : State → Prop) : Prop :=
  ∃ j t, Host.Core.run core j s = .next t ∧ P t

/-- A run of the machine reaches a state with property `P` within `k` steps. -/
def reachesWithin (s : State) (k : Nat) (P : State → Prop) : Prop :=
  ∃ j t, j ≤ k ∧ Host.Core.run core j s = .next t ∧ P t

end Sys2Proof.Machine
end

