-- ==== Sys2Proof/Certificates/Slice0/Obligations.lean ====
section
/-! DEFINITION. The statements about the machine, for the provers. Each docstring names the rules of spec/
it rests on; where a clause rests on a decision of the spec's own (92_eei_decisions.md) or on a log entry
of the model, it says so. -/

open Sys2Proof Sys2Proof.Machine

/-! ## Encoding -/

/-- 30_encoding.md R79 to R85, R78: decoding the encoding of a well-formed instruction, at the position
where it stands and with any bytes after it, gives back the instruction and those bytes. -/
def Obligations.DecodeOfEncodeIsTheInstruction : Prop :=
  ∀ (i : Instr) (rest : List Byte), wellFormed i = true →
    decode i.position (encode i ++ rest) = .ok (i, rest)

/-- 30_encoding.md R86, R90: what the decoder reads is well-formed, stands at that position, and its
encoding is the bytes it was read from. Each word has one meaning. -/
def Obligations.EncodeOfDecodeIsTheBytes : Prop :=
  ∀ (p : Position) (bytes rest : List Byte) (i : Instr), decode p bytes = .ok (i, rest) →
    wellFormed i = true ∧ i.position = p ∧ encode i ++ rest = bytes

/-- 30_encoding.md R86: the first-byte map, with the lengths. -/
def Obligations.FirstByteSelectsTheChunk : Prop :=
  ∀ b0 : Byte,
    (b0.toNat = 254 → chunkKind b0 = .rgb ∧ (chunkKind b0).length = 4) ∧
    (b0.toNat = 255 → chunkKind b0 = .rgba ∧ (chunkKind b0).length = 5) ∧
    (b0.toNat ≤ 63 → chunkKind b0 = .index ∧ (chunkKind b0).length = 1) ∧
    (64 ≤ b0.toNat ∧ b0.toNat ≤ 127 → chunkKind b0 = .diff ∧ (chunkKind b0).length = 1) ∧
    (128 ≤ b0.toNat ∧ b0.toNat ≤ 191 → chunkKind b0 = .luma ∧ (chunkKind b0).length = 2) ∧
    (192 ≤ b0.toNat ∧ b0.toNat ≤ 253 → chunkKind b0 = .run ∧ (chunkKind b0).length = 1)

/-- 30_encoding.md R90, R93: no chunk byte value is illegal. Bytes that hold as many as their first byte
asks for decode to a chunk of that length. -/
def Obligations.NoChunkIsIllegal : Prop :=
  ∀ (b0 : Byte) (bytes : List Byte), (chunkKind b0).length ≤ (b0 :: bytes).length →
    ∃ i, decode .chunk (b0 :: bytes) = .ok (i, (b0 :: bytes).drop (chunkKind b0).length) ∧
      i.size = (chunkKind b0).length

/-- 30_encoding.md R77 to R85, words written out from the formats: one per row of the opcode table. How the
bytes of an instruction are packed into one number, the first byte the least significant, is the model's
choice (log entry 11); the bytes themselves are the formats'. -/
def Obligations.WordsOfTheSpecDecode : Prop :=
  decodeTableWord 8 0b00001001 = some (.index 9) ∧
  decodeTableWord 8 0b01111001 = some (.diff 1 0 (-1)) ∧
  decodeTableWord 16 0b0011110110111001 = some (.luma 25 (-5) 5) ∧
  decodeTableWord 8 0b11111101 = some (.run 62) ∧
  decodeTableWord 32 0x1E140AFE = some (.rgb 10 20 30) ∧
  decodeTableWord 40 0x80030201FF = some (.rgba 1 2 3 128) ∧
  decodeTableWord 64 0x0100000000000000 = some .endMarker ∧
  decodeTableWord 112 0x01045802000020030000_66696F71 = some (.header 800 600 4 1)

/-- 40_header_codec.md R97, R98, R100: `decodeHeader` of an encoded header gives it back, whatever
follows it, exactly when channels and colorspace are legal; width and height may be any u32. -/
def Obligations.HeaderRoundTrip : Prop :=
  ∀ (w h : U32) (c cs : Byte) (rest : List Byte),
    ((c = 3 ∨ c = 4) ∧ (cs = 0 ∨ cs = 1) →
      decodeHeader (encodeHeader w h c cs ++ rest) = some ⟨w, h, c, cs⟩) ∧
    (¬((c = 3 ∨ c = 4) ∧ (cs = 0 ∨ cs = 1)) → decodeHeader (encodeHeader w h c cs ++ rest) = none)

/-- 20_memory.md R62, R64, R70; 30_encoding.md R78: the header's bytes by offset, its integers
big-endian. -/
def Obligations.HeaderLayout : Prop :=
  ∀ (w h : U32) (c cs : Byte), ∃ w0 w1 w2 w3 h0 h1 h2 h3 : Byte,
    encodeHeader w h c cs = [0x71, 0x6F, 0x69, 0x66, w0, w1, w2, w3, h0, h1, h2, h3, c, cs] ∧
    w.toNat = w0.toNat * 2 ^ 24 + w1.toNat * 2 ^ 16 + w2.toNat * 2 ^ 8 + w3.toNat ∧
    h.toNat = h0.toNat * 2 ^ 24 + h1.toNat * 2 ^ 16 + h2.toNat * 2 ^ 8 + h3.toNat

/-! ## Arithmetic -/

/-- 00_scope.md R20: `wrap8` is the non-negative modulus, `s8` its image in -128..127. -/
def Obligations.WrapAndSignedWrap : Prop :=
  ∀ x : Int, ((wrap8 x).toNat : Int) = x % 256 ∧
    s8 x = (if 128 ≤ x % 256 then x % 256 - 256 else x % 256)

/-- 10_state.md R51: the slot index, and that the sum may be computed modulo any 2^n with n ≥ 6. -/
def Obligations.HashNeedsSixBits : Prop :=
  ∀ (p : Pixel) (n : Nat), 6 ≤ n →
    (hash p).val = (p.r.toNat * 3 + p.g.toNat * 5 + p.b.toNat * 7 + p.a.toNat * 11) % 2 ^ n % 64

/-- 30_encoding.md R89, 41_encoder.md R111: the delta ENC computes, added by DEC, gives the channel back,
and it lies in -128..127. -/
def Obligations.DeltaGivesTheChannelBack : Prop :=
  ∀ p prev : Byte, addDelta prev (delta p prev) = p ∧ -128 ≤ delta p prev ∧ delta p prev ≤ 127

/-- 41_encoder.md R118: the LUMA test gives the same verdict whether or not the differences are
wrapped. -/
def Obligations.LumaVerdictIgnoresWrap : Prop :=
  ∀ p prev : Pixel,
    let dr := delta p.r prev.r
    let dg := delta p.g prev.g
    let db := delta p.b prev.b
    fitsLuma dr dg db = true ↔
      (-32 ≤ dg ∧ dg ≤ 31) ∧ (-8 ≤ s8 (dr - dg) ∧ s8 (dr - dg) ≤ 7) ∧ (-8 ≤ s8 (db - dg) ∧ s8 (db - dg) ≤ 7)

/-! ## What each instruction does

Each says that the instruction completes, and its frame. The layout of a pixel in PO is the spec's
decision D3. -/

/-- 42_decoder.md R128, 90_conflicts.md C1 and C2: INDEX outputs the slot's pixel and makes it `prev`;
no slot is written. -/
def Obligations.IndexOutputsTheSlot : Prop :=
  ∀ (idx : Fin 64) (s : State), ∃ t, exec (.index idx) s = .next t ∧ onlyDec s t ∧
    s.dec.sameControl t.dec ∧ t.dec.pos = s.dec.pos + 1 ∧ t.dec.run = s.dec.run ∧
    t.dec.prev = Cache.slot s.dec.cache idx ∧ t.dec.cache = s.dec.cache ∧ s.dec.pixelOut t.dec (Cache.slot s.dec.cache idx)

/-- 42_decoder.md R129: DIFF adds its three deltas to `prev`, each channel modulo 256, keeps alpha, and
does the new-pixel update. -/
def Obligations.DiffAddsItsDeltas : Prop :=
  ∀ (dr dg db : Int) (s : State), ∃ t p, exec (.diff dr dg db) s = .next t ∧ onlyDec s t ∧
    (p.r.toNat : Int) = (s.dec.prev.r.toNat + dr) % 256 ∧
    (p.g.toNat : Int) = (s.dec.prev.g.toNat + dg) % 256 ∧
    (p.b.toNat : Int) = (s.dec.prev.b.toNat + db) % 256 ∧
    p.a = s.dec.prev.a ∧ s.dec.newPixelDone t.dec 1 p

/-- 42_decoder.md R130: LUMA's red and blue deltas are relative to its green one. -/
def Obligations.LumaAddsItsDeltas : Prop :=
  ∀ (dg drg dbg : Int) (s : State), s.dec.pos + 2 ≤ s.dec.N →
    ∃ t p, exec (.luma dg drg dbg) s = .next t ∧ onlyDec s t ∧
      (p.r.toNat : Int) = (s.dec.prev.r.toNat + (drg + dg)) % 256 ∧
      (p.g.toNat : Int) = (s.dec.prev.g.toNat + dg) % 256 ∧
      (p.b.toNat : Int) = (s.dec.prev.b.toNat + (dbg + dg)) % 256 ∧
      p.a = s.dec.prev.a ∧ s.dec.newPixelDone t.dec 2 p

/-- 42_decoder.md R131: RGB gives the three channels, alpha is inherited. -/
def Obligations.RgbInheritsAlpha : Prop :=
  ∀ (r g b : Byte) (s : State), s.dec.pos + 4 ≤ s.dec.N →
    ∃ t, exec (.rgb r g b) s = .next t ∧ onlyDec s t ∧
      s.dec.newPixelDone t.dec 4 ⟨r, g, b, s.dec.prev.a⟩

/-- 42_decoder.md R132: RGBA gives the four channels, whatever the header's channel count (decision
D11). -/
def Obligations.RgbaGivesAllChannels : Prop :=
  ∀ (r g b a : Byte) (s : State), s.dec.pos + 5 ≤ s.dec.N →
    ∃ t, exec (.rgba r g b a) s = .next t ∧ onlyDec s t ∧ s.dec.newPixelDone t.dec 5 ⟨r, g, b, a⟩

/-- 42_decoder.md R133: a RUN that fits leaves its repeats pending; no cache slot, no pixel, and `prev`
stays. -/
def Obligations.RunLeavesRepeatsPending : Prop :=
  ∀ (n : Nat) (s : State), s.dec.n + n ≤ s.dec.T →
    ∃ t, exec (.run n) s = .next t ∧ onlyDec s t ∧ s.dec.sameControl t.dec ∧
      t.dec.pos = s.dec.pos + 1 ∧ t.dec.run = n ∧ t.dec.prev = s.dec.prev ∧
      t.dec.cache = s.dec.cache ∧ s.dec.noPixel t.dec

/-- 42_decoder.md R136: the end marker ends the pass, where nothing follows it, or where trailing bytes
are ignored (decisions D6 and D7). -/
def Obligations.EndMarkerEndsThePass : Prop :=
  ∀ s : State, s.dec.pos + 8 ≤ s.dec.N →
    (s.dec.pos + 8 = s.dec.N ∨ s.params.trailing = .ignore) →
    ∃ t, exec .endMarker s = .next t ∧ onlyDec s t ∧ t.dec.phase = .done ∧ t.dec.pos = s.dec.pos + 8 ∧
      t.dec.err = s.dec.err ∧ t.dec.hdr = s.dec.hdr ∧ t.dec.N = s.dec.N ∧ t.dec.ib = s.dec.ib ∧
      t.dec.errors = s.dec.errors ∧ t.dec.run = s.dec.run ∧ t.dec.prev = s.dec.prev ∧
      t.dec.cache = s.dec.cache ∧ s.dec.noPixel t.dec

/-- 42_decoder.md R122, 70_reset_and_hazards.md R166: a legal header starts a pass; the rolling state is
initialised, the operand stays, and PO is empty. -/
def Obligations.HeaderStartsThePass : Prop :=
  ∀ (w h : U32) (c cs : Byte) (s : State), 14 ≤ s.dec.ib.len →
    (c = 3 ∨ c = 4) → (cs = 0 ∨ cs = 1) →
    ∃ t, exec (.header w h c cs) s = .next t ∧ onlyDec s t ∧ t.dec.phase = .stream ∧ t.dec.err = .none ∧
      t.dec.hdr = ⟨w, h, c, cs⟩ ∧ t.dec.N = s.dec.ib.len ∧ t.dec.pos = 14 ∧ t.dec.n = 0 ∧
      t.dec.prev = ⟨0, 0, 0, 255⟩ ∧ t.dec.run = 0 ∧ (∀ i : Fin 64, Cache.slot t.dec.cache i = ⟨0, 0, 0, 0⟩) ∧
      t.dec.ib = s.dec.ib ∧ t.dec.errors = s.dec.errors ∧ (∀ a, t.dec.po.read a = none)

/-! ## Where an instruction raises an error -/

/-- 42_decoder.md R130 to R132: a chunk whose operands run past the end of IB raises FormatError. -/
def Obligations.CutOffChunkIsFormatError : Prop :=
  ∀ (i : Instr) (s : State), i.position = .chunk → 1 < i.size → s.dec.N < s.dec.pos + i.size →
    ∃ t, exec i s = .next t ∧ onlyDec s t ∧ t.dec.stopped .format

/-- 42_decoder.md R133: a RUN that overshoots T raises PixelCountMismatchError (decision D5). -/
def Obligations.RunOvershootIsPixelCountMismatch : Prop :=
  ∀ (n : Nat) (s : State), s.dec.T < s.dec.n + n →
    ∃ t, exec (.run n) s = .next t ∧ onlyDec s t ∧ t.dec.stopped .pixelCountMismatch

/-- 42_decoder.md R136: a marker that is cut short, or followed by bytes under `reject`, raises
FormatError (decision D7). -/
def Obligations.BadEndIsFormatError : Prop :=
  ∀ s : State,
    (s.dec.N < s.dec.pos + 8 ∨ s.dec.pos + 8 ≠ s.dec.N ∧ s.params.trailing = .reject) →
    ∃ t, exec .endMarker s = .next t ∧ onlyDec s t ∧ t.dec.stopped .format

/-- 40_header_codec.md R98, 42_decoder.md R122, 30_encoding.md R92: a header with channels outside 3, 4
or colorspace outside 0, 1, or in fewer than 14 bytes, raises FormatError. -/
def Obligations.IllegalHeaderIsFormatError : Prop :=
  ∀ (w h : U32) (c cs : Byte) (s : State),
    (s.dec.ib.len < 14 ∨ ¬(c = 3 ∨ c = 4) ∨ ¬(cs = 0 ∨ cs = 1)) →
    ∃ t, exec (.header w h c cs) s = .next t ∧ onlyDec s t ∧ t.dec.stopped .format

/-! ## A step runs the decoded instruction -/

/-- 42_decoder.md R126: when DEC moves in a pass with no repeat pending and pixels owed, and the bytes at
the cursor are the encoding of a chunk, the step is that chunk's meaning. -/
def Obligations.StepRunsTheChunk : Prop :=
  ∀ (s : State) (i : Instr), s.decNext → s.dec.phase = .stream → s.dec.run = 0 → s.dec.n < s.dec.T →
    wellFormed i = true → i.position = .chunk → s.dec.pos + i.size ≤ s.dec.N →
    s.dec.ib.read s.dec.pos i.size = some (encode i) →
    step s = exec i s.popped

/-- 42_decoder.md R126, R136: after the last pixel, when the next 8 bytes are the marker, the step is the
end check. -/
def Obligations.StepRunsTheEndMarker : Prop :=
  ∀ s : State, s.decNext → s.dec.phase = .stream → s.dec.run = 0 → s.dec.T ≤ s.dec.n →
    s.dec.pos + 8 ≤ s.dec.N → s.dec.ib.read s.dec.pos 8 = some [0, 0, 0, 0, 0, 0, 0, 1] →
    step s = exec .endMarker s.popped

/-- 42_decoder.md R122, R123: the host's start command outside a pass hands the operand over and runs its
header. -/
def Obligations.StepRunsTheHeader : Prop :=
  ∀ (s : State) (w h : U32) (c cs : Byte) (rest : List Byte), s.dec.busy = false →
    s.hostNext (.decStart (encode (.header w h c cs) ++ rest)) →
    step s = exec (.header w h c cs)
      { s.popped with dec := { s.dec with ib := Buffer.ofBytes (encode (.header w h c cs) ++ rest) } }

/-! ## DEC's other steps -/

/-- 42_decoder.md R134: a pending repeat writes `prev` once and is counted down; no cache slot (decision
D26). -/
def Obligations.RepeatWritesPrev : Prop :=
  ∀ s : State, s.decNext → s.dec.phase = .stream → 0 < s.dec.run →
    ∃ t, step s = .next t ∧ onlyDec s.popped t ∧ s.dec.sameControl t.dec ∧ t.dec.pos = s.dec.pos ∧
      t.dec.run = s.dec.run - 1 ∧ t.dec.prev = s.dec.prev ∧ t.dec.cache = s.dec.cache ∧
      s.dec.pixelOut t.dec s.dec.prev

/-- 42_decoder.md R127, 60_exceptions.md R148: no byte left at a chunk boundary with pixels owed
(decisions D6 and D14). -/
def Obligations.ExhaustedStreamIsTruncated : Prop :=
  ∀ s : State, s.decNext → s.dec.phase = .stream → s.dec.run = 0 → s.dec.n < s.dec.T →
    s.dec.pos = s.dec.N →
    ∃ t, step s = .next t ∧ onlyDec s.popped t ∧ t.dec.stopped .truncatedStream

/-- 60_exceptions.md R148, 42_decoder.md R130 to R132: the step that meets a chunk cut off inside its
operands raises FormatError (decision D14). -/
def Obligations.StepOnCutOffChunkIsFormatError : Prop :=
  ∀ (s : State) (b0 : Byte), s.Inv → s.decNext → s.dec.phase = .stream → s.dec.run = 0 →
    s.dec.n < s.dec.T → s.dec.pos < s.dec.N → s.dec.ib.read s.dec.pos 1 = some [b0] →
    s.dec.N < s.dec.pos + (chunkKind b0).length →
    ∃ t, step s = .next t ∧ onlyDec s.popped t ∧ t.dec.stopped .format

/-- 42_decoder.md R136: after the last pixel, anything but the marker raises FormatError (decision
D6). -/
def Obligations.StepOnBadMarkerIsFormatError : Prop :=
  ∀ s : State, s.Inv → s.decNext → s.dec.phase = .stream → s.dec.run = 0 → s.dec.n = s.dec.T →
    (s.dec.N < s.dec.pos + 8 ∨ s.dec.ib.read s.dec.pos 8 ≠ some [0, 0, 0, 0, 0, 0, 0, 1]) →
    ∃ t, step s = .next t ∧ onlyDec s.popped t ∧ t.dec.stopped .format

/-- 42_decoder.md R122, 60_exceptions.md R145: DEC's start command accepts exactly the byte sequences
whose header HDR's `decodeHeader` accepts, and latches its record; otherwise FormatError. -/
def Obligations.DecStartFollowsDecodeHeader : Prop :=
  ∀ (s : State) (bytes : List Byte), s.dec.busy = false → s.hostNext (.decStart bytes) →
    ∃ t, step s = .next t ∧ onlyDec s.popped t ∧ t.dec.ib = Buffer.ofBytes bytes ∧
      match decodeHeader bytes with
      | none => t.dec.stopped .format
      | some h => t.dec.phase = .stream ∧ t.dec.err = .none ∧ t.dec.hdr = h ∧ t.dec.N = bytes.length ∧
          t.dec.pos = 14 ∧ t.dec.n = 0 ∧ t.dec.run = 0

/-- 42_decoder.md R135, R138: a DEC step that stays in the pass never moves the cursor backwards, makes
at most one pixel, and raises the measure 64*pos + n - run. -/
def Obligations.DecStepRaisesTheMeasure : Prop :=
  ∀ s t : State, s.Inv → s.decNext → s.dec.phase = .stream → step s = .next t → t.dec.phase = .stream →
    s.dec.pos ≤ t.dec.pos ∧ s.dec.n ≤ t.dec.n ∧ t.dec.n ≤ s.dec.n + 1 ∧
    64 * s.dec.pos + s.dec.n + t.dec.run < 64 * t.dec.pos + t.dec.n + s.dec.run

/-! ## ENC -/

/-- 40_header_codec.md R99: the encoder's header domain. -/
def Obligations.EncoderHeaderDomain : Prop :=
  ∀ w h c cs : Nat, validEncHeader w h c cs = true ↔
    (1 ≤ w ∧ w ≤ 2 ^ 32 - 2) ∧ (1 ≤ h ∧ h ≤ 2 ^ 32 - 2) ∧ (c = 3 ∨ c = 4) ∧ (cs = 0 ∨ cs = 1)

/-- 41_encoder.md R102: an accepted start initialises ENC and emits the header (the length rule is the
spec's decision D8). -/
def Obligations.EncStartEmitsTheHeader : Prop :=
  ∀ (s : State) (w h c cs : Nat) (pb : List Byte), s.enc.busy = false →
    s.hostNext (.encStart w h c cs pb) → validEncHeader w h c cs = true → pb.length = w * h * c →
    ∃ t, step s = .next t ∧ onlyEnc s.popped t ∧ t.enc.phase = .pixels ∧ t.enc.err = .none ∧
      t.enc.hdr.W.toNat = w ∧ t.enc.hdr.H.toNat = h ∧ t.enc.hdr.C.toNat = c ∧ t.enc.hdr.CS.toNat = cs ∧
      t.enc.k = 0 ∧ t.enc.oc = 14 ∧ t.enc.prev = ⟨0, 0, 0, 255⟩ ∧ t.enc.run = 0 ∧
      (∀ i : Fin 64, Cache.slot t.enc.cache i = ⟨0, 0, 0, 0⟩) ∧ t.enc.pb = Buffer.ofBytes pb ∧
      Memory.readBytes t.enc.ob 0 14
        = some (encodeHeader (BitVec.ofNat 32 w) (BitVec.ofNat 32 h) (BitVec.ofNat 8 c) (BitVec.ofNat 8 cs))

/-- 41_encoder.md R102, 60_exceptions.md R144: a header outside the domain, or a buffer of another length
(decision D8), is a ValidationError. -/
def Obligations.EncStartRejects : Prop :=
  ∀ (s : State) (w h c cs : Nat) (pb : List Byte), s.enc.busy = false →
    s.hostNext (.encStart w h c cs pb) → (validEncHeader w h c cs = false ∨ pb.length ≠ w * h * c) →
    ∃ t, step s = .next t ∧ onlyEnc s.popped t ∧ t.enc.stopped .validation

/-- 41_encoder.md R104, 20_memory.md R66 (decision D3): the pixel ENC reads is the bytes at k*C of the
operand, with alpha 255 where C = 3. -/
def Obligations.PixInReadsThePixel : Prop :=
  ∀ (e : Enc) (pre post : List Byte) (r g b a : Byte) (k : Nat), pre.length = k * e.hdr.C.toNat →
    (e.hdr.C = 3 → e.pb = Buffer.ofBytes (pre ++ [r, g, b] ++ post) → pixIn e k = some ⟨r, g, b, 255⟩) ∧
    (e.hdr.C = 4 → e.pb = Buffer.ofBytes (pre ++ [r, g, b, a] ++ post) → pixIn e k = some ⟨r, g, b, a⟩)

/-- 41_encoder.md R105: ENC's move in phase PIXELS processes pixel k, counts it, and goes to FINISH after
the last. -/
def Obligations.EncStepProcessesOnePixel : Prop :=
  ∀ (s : State) (p : Pixel), s.encNext → s.enc.phase = .pixels → pixIn s.enc s.enc.k = some p →
    step s = .next { s.popped with enc :=
      { encPixel p s.enc with
        k := s.enc.k + 1
        phase := if s.enc.k + 1 = s.enc.T then .finish else .pixels } }

/-- 41_encoder.md R106: a pixel equal to `prev` below 62 repeats extends the run and changes nothing
else. -/
def Obligations.RunContinuation : Prop :=
  ∀ (e : Enc) (p : Pixel), p = e.prev → e.run < 62 → encPixel p e = { e with run := e.run + 1 }

/-- 41_encoder.md R107 (decision D4): at 62 repeats the byte 0xFD is emitted and a new run begins. -/
def Obligations.RunSaturation : Prop :=
  ∀ (e : Enc) (p : Pixel), p = e.prev → e.run = 62 →
    e.emitted (encPixel p e) [0xFD] ∧ (encPixel p e).run = 1 ∧ (encPixel p e).cache = e.cache ∧
      (encPixel p e).prev = e.prev ∧ e.sameControl (encPixel p e) ∧
      (encPixel p e).k = e.k ∧ (encPixel p e).phase = e.phase

/-- 41_encoder.md R108 to R116: a pixel that differs from `prev` flushes the run and emits one chunk,
INDEX before DIFF before LUMA before RGB, RGBA exactly where alpha changed; the slot is written unless
INDEX was chosen; `prev` is the pixel. -/
def Obligations.DifferingPixelChoosesItsChunk : Prop :=
  ∀ (e : Enc) (p : Pixel), p ≠ e.prev → e.run ≤ 62 →
    let dr := delta p.r e.prev.r
    let dg := delta p.g e.prev.g
    let db := delta p.b e.prev.b
    let diff := (-2 ≤ dr ∧ dr ≤ 1) ∧ (-2 ≤ dg ∧ dg ≤ 1) ∧ (-2 ≤ db ∧ db ≤ 1)
    let luma := (-32 ≤ dg ∧ dg ≤ 31) ∧ (-8 ≤ dr - dg ∧ dr - dg ≤ 7) ∧ (-8 ≤ db - dg ∧ db - dg ≤ 7)
    (encPixel p e).prev = p ∧ (encPixel p e).run = 0 ∧ e.sameControl (encPixel p e) ∧
    (encPixel p e).k = e.k ∧ (encPixel p e).phase = e.phase ∧
    (Cache.slot e.cache (hash p) = p → (encPixel p e).cache = e.cache ∧
      e.emitted (encPixel p e) (runBytes e.run ++ [BitVec.ofNat 8 (hash p).val])) ∧
    (Cache.slot e.cache (hash p) ≠ p → slotWritten e.cache (encPixel p e).cache p ∧
      (p.a ≠ e.prev.a → e.emitted (encPixel p e) (runBytes e.run ++ [0xFF, p.r, p.g, p.b, p.a])) ∧
      (p.a = e.prev.a → diff →
        e.emitted (encPixel p e)
          (runBytes e.run ++ [BitVec.ofInt 8 (64 + 16 * (dr + 2) + 4 * (dg + 2) + (db + 2))])) ∧
      (p.a = e.prev.a → ¬diff → luma →
        e.emitted (encPixel p e)
          (runBytes e.run ++ [BitVec.ofInt 8 (128 + (dg + 32)),
            BitVec.ofInt 8 (16 * (dr - dg + 8) + (db - dg + 8))])) ∧
      (p.a = e.prev.a → ¬diff → ¬luma →
        e.emitted (encPixel p e) (runBytes e.run ++ [0xFE, p.r, p.g, p.b])))

/-- 41_encoder.md R117: the finish step flushes the pending run, writes the marker and ends the pass. -/
def Obligations.FinishWritesTheMarker : Prop :=
  ∀ s : State, s.encNext → s.enc.phase = .finish → s.enc.run ≤ 62 →
    ∃ t, step s = .next t ∧ onlyEnc s.popped t ∧ t.enc.phase = .done ∧ t.enc.run = 0 ∧
      s.enc.sameControl t.enc ∧ t.enc.k = s.enc.k ∧ t.enc.prev = s.enc.prev ∧
      t.enc.cache = s.enc.cache ∧ s.enc.emitted t.enc (runBytes s.enc.run ++ [0, 0, 0, 0, 0, 0, 0, 1])

/-- 41_encoder.md R120: in a 3-channel pass every pixel read has the alpha of `prev`, and no chunk chosen
is RGBA. -/
def Obligations.ThreeChannelsNeverRgba : Prop :=
  ∀ (s : State) (p : Pixel), s.Inv → s.enc.phase = .pixels → s.enc.hdr.C = 3 →
    pixIn s.enc s.enc.k = some p →
    p.a = s.enc.prev.a ∧ ∀ r g b a, literalFor p s.enc.prev ≠ .rgba r g b a

/-- 41_encoder.md R121: a differing pixel leaves `prev` in its slot, and every later pixel keeps it
so. -/
def Obligations.PrevIsInItsSlot : Prop :=
  ∀ (e : Enc) (p : Pixel), (p ≠ e.prev ∨ Cache.slot e.cache (hash e.prev) = e.prev) →
    Cache.slot (encPixel p e).cache (hash (encPixel p e).prev) = (encPixel p e).prev

/-! ## Both units -/

/-- 42_decoder.md R139 for one chunk: the chunk ENC chooses for a differing pixel, run by a DEC that holds
the same `prev` and cache, makes that pixel, and leaves both units with the same `prev` and cache. -/
def Obligations.OneChunkKeepsTheLockstep : Prop :=
  ∀ (e : Enc) (s : State) (p : Pixel), p ≠ e.prev → s.dec.prev = e.prev → s.dec.cache = e.cache →
    s.dec.pos + 5 ≤ s.dec.N →
    ∃ i t, wellFormed i = true ∧ i.position = .chunk ∧
      e.emitted (encPixel p e) ((if 0 < e.run then encode (.run e.run) else []) ++ encode i) ∧
      exec i s = .next t ∧ t.dec.pos = s.dec.pos + i.size ∧ s.dec.pixelOut t.dec p ∧
      t.dec.prev = (encPixel p e).prev ∧ t.dec.cache = (encPixel p e).cache

/-- 10_state.md R27, R28; 20_memory.md R71: units share nothing. DEC's move neither reads nor changes
ENC, and ENC's move neither reads nor changes DEC. -/
def Obligations.UnitsShareNothing : Prop :=
  (∀ (s t : State) (e : Enc), decMove s = .next t →
    t.enc = s.enc ∧ decMove { s with enc := e } = .next { t with enc := e }) ∧
  (∀ (s t : State) (d : Dec), encMove s = .next t →
    t.dec = s.dec ∧ encMove { s with dec := d } = .next { t with dec := d })

/-- 40_header_codec.md R101, 10_state.md R54: the colorspace of either unit has no effect on any computation.
Two machines whose DEC differ in it alone still differ in it alone after DEC's move; the one that had `v`
still has it, but for an error, which leaves it free (log entry 2). The same of ENC, which has no error but
at its start. -/
def Obligations.ColorspaceIsOpaque : Prop :=
  (∀ (s t : State) (v : Byte), decMove s = .next t →
    ∃ v', (t.dec.phase ≠ .error → v' = v) ∧
      decMove { s with dec := { s.dec with hdr := { s.dec.hdr with CS := v } } }
        = .next { t with dec := { t.dec with hdr := { t.dec.hdr with CS := v' } } }) ∧
  (∀ (s t : State) (v : Byte), encMove s = .next t →
    encMove { s with enc := { s.enc with hdr := { s.enc.hdr with CS := v } } }
      = .next { t with enc := { t.enc with hdr := { t.enc.hdr with CS := v } } })

/-- 70_reset_and_hazards.md R162: an accepted start initialises the rolling state, and nothing from an
earlier pass survives into a later one. Two machines that start the same pass hold the same unit afterwards,
all of it: registers, operand and output. The exception for `errors`, the model's own count of errors, is
the model's choice (log entry 2). -/
def Obligations.StartForgetsTheEarlierPass : Prop :=
  (∀ (s s' t t' : State) (ib : List Byte), s.hostNext (.decStart ib) → s'.hostNext (.decStart ib) →
    step s = .next t → step s' = .next t' → t.dec.phase = .stream →
    (∀ i : Fin 64, Cache.slot t.dec.cache i = ⟨0, 0, 0, 0⟩) ∧ t.dec.prev = ⟨0, 0, 0, 255⟩ ∧ t.dec.run = 0 ∧
    t'.dec = { t.dec with errors := t'.dec.errors }) ∧
  (∀ (s s' t t' : State) (w h c cs : Nat) (pb : List Byte), s.hostNext (.encStart w h c cs pb) →
    s'.hostNext (.encStart w h c cs pb) → step s = .next t → step s' = .next t' →
    t.enc.phase = .pixels →
    (∀ i : Fin 64, Cache.slot t.enc.cache i = ⟨0, 0, 0, 0⟩) ∧ t.enc.prev = ⟨0, 0, 0, 255⟩ ∧ t.enc.run = 0 ∧
    t'.enc = { t.enc with errors := t'.enc.errors })

/-! ## The host's commands -/

/-- 60_exceptions.md R143, R152, 20_memory.md R72: reads of results before DONE give none; reads of status
always give the register, `err` as its code 0 to 4 (decisions D13, D22 and D24; log entry 9). A read changes
nothing else. -/
def Obligations.ReadsOfStatusAndEarlyReads : Prop :=
  ∀ s : State,
    (s.hostNext (.readPhase .enc) → step s = .next { s.popped with reply := some (.encPhase s.enc.phase) }) ∧
    (s.hostNext (.readPhase .dec) → step s = .next { s.popped with reply := some (.decPhase s.dec.phase) }) ∧
    (∀ (kind : ErrKind) (code : Nat),
      (kind, code) ∈ [(ErrKind.none, 0), (ErrKind.validation, 1), (ErrKind.format, 2),
        (ErrKind.truncatedStream, 3), (ErrKind.pixelCountMismatch, 4)] →
      (s.hostNext (.readErr .enc) → s.enc.err = kind →
        step s = .next { s.popped with reply := some (.errCode code) }) ∧
      (s.hostNext (.readErr .dec) → s.dec.err = kind →
        step s = .next { s.popped with reply := some (.errCode code) })) ∧
    (s.hostNext .readOB → s.enc.phase ≠ .done → step s = .next { s.popped with reply := some .noResult }) ∧
    (s.hostNext .readPO → s.dec.phase ≠ .done → step s = .next { s.popped with reply := some .noResult }) ∧
    (∀ f, s.hostNext (.readAccessor f) → s.dec.phase ≠ .done →
      step s = .next { s.popped with reply := some .noResult })

/-- 41_encoder.md R117, 42_decoder.md R137, 40_header_codec.md R101: at DONE the host gets the whole
result. -/
def Obligations.ReadsAtDoneGiveTheResult : Prop :=
  ∀ s : State, s.Inv →
    (s.hostNext .readOB → s.enc.phase = .done → ∃ bs, bs.length = s.enc.oc ∧
      Memory.readBytes s.enc.ob 0 s.enc.oc = some bs ∧
      step s = .next { s.popped with reply := some (.bytes bs) }) ∧
    (s.hostNext .readPO → s.dec.phase = .done → ∃ bs, bs.length = s.dec.T * s.dec.hdr.C.toNat ∧
      Memory.readBytes s.dec.po 0 bs.length = some bs ∧
      step s = .next { s.popped with reply := some (.bytes bs) }) ∧
    (s.hostNext (.readAccessor .width) → s.dec.phase = .done →
      step s = .next { s.popped with reply := some (.field s.dec.hdr.W.toNat) }) ∧
    (s.hostNext (.readAccessor .height) → s.dec.phase = .done →
      step s = .next { s.popped with reply := some (.field s.dec.hdr.H.toNat) }) ∧
    (s.hostNext (.readAccessor .channels) → s.dec.phase = .done →
      step s = .next { s.popped with reply := some (.field s.dec.hdr.C.toNat) }) ∧
    (s.hostNext (.readAccessor .colorspace) → s.dec.phase = .done →
      step s = .next { s.popped with reply := some (.field s.dec.hdr.CS.toNat) })

/-- 40_header_codec.md R97, R98; 60_exceptions.md R152: HDR's two commands answer in any phase;
`encodeHeader` of a field too wide for the wire is refused (decision D10, log entry 8). -/
def Obligations.HeaderCommands : Prop :=
  (∀ (s : State) (w h c cs : Nat), s.hostNext (.encodeHeader w h c cs) →
    (w < 2 ^ 32 ∧ h < 2 ^ 32 ∧ c < 256 ∧ cs < 256 →
      step s = .next { s.popped with reply := some (.bytes
        (encodeHeader (BitVec.ofNat 32 w) (BitVec.ofNat 32 h) (BitVec.ofNat 8 c) (BitVec.ofNat 8 cs))) }) ∧
    (¬(w < 2 ^ 32 ∧ h < 2 ^ 32 ∧ c < 256 ∧ cs < 256) → step s = .refused .headerFieldTooWide)) ∧
  (∀ (s : State) (bytes : List Byte), s.hostNext (.decodeHeader bytes) →
    (∀ hdr, decodeHeader bytes = some hdr →
      step s = .next { s.popped with reply := some (.header hdr) }) ∧
    (decodeHeader bytes = none → step s = .next { s.popped with reply := some (.error .format) }))

/-! ## The whole machine -/

/-- 70_reset_and_hazards.md R160, 10_state.md R57: phases and error codes after reset (decision D17). The
four clauses that no buffer lists a byte are the model's choice: the spec leaves the buffers unspecified at
reset (log entry 1; log entry 6 for what an unlisted byte is). -/
def Obligations.ResetIsIdle : Prop :=
  State.reset.enc.phase = .idle ∧ State.reset.enc.err.code = 0 ∧
  State.reset.dec.phase = .idle ∧ State.reset.dec.err.code = 0 ∧
  State.reset.enc.pb.cells = [] ∧ State.reset.enc.ob = [] ∧
  State.reset.dec.ib.cells = [] ∧ State.reset.dec.po = []

/-- The invariant holds after reset. That rests on the empty buffers, which are the model's choice (log entry
1): R57 and R160 leave the buffers unspecified at reset. -/
def Obligations.ResetMeetsTheInvariant : Prop := State.reset.Inv

/-- Every step keeps the invariant: canonical memories, complete operands, registers in their ranges
(10_state.md R37, R40, R44, R46, R47, R49), the output exactly what was written, R120 and R121. -/
def Obligations.StepKeepsTheInvariant : Prop :=
  ∀ s t : State, s.Inv → step s = .next t → t.Inv

/-- 93_implementation_defined.md §1 ("There is no `fault` or `stuck` treatment in this spec"): no step
from a state that meets the invariant faults. -/
def Obligations.InvariantStatesNeverFault : Prop :=
  ∀ (s : State) (f : Fault), s.Inv → step s ≠ .fault f

/-- 41_encoder.md R103, 42_decoder.md R123, 60_exceptions.md R152: the machine refuses a start command to a
unit in a pass (decision D18), `encodeHeader` of a field too wide (decision D10), and nothing else. That
these are refusals is log entry 8. -/
def Obligations.ExactlyTheseMovesAreRefused : Prop :=
  ∀ (s : State) (r : Refusal), step s = .refused r ↔
    (∃ w h c cs pb, s.hostNext (.encStart w h c cs pb) ∧
      (s.enc.phase = .pixels ∨ s.enc.phase = .finish) ∧ r = .startWhileBusy .enc) ∨
    (∃ ib, s.hostNext (.decStart ib) ∧ s.dec.phase = .stream ∧ r = .startWhileBusy .dec) ∨
    (∃ w h c cs, s.hostNext (.encodeHeader w h c cs) ∧
      ¬(w < 2 ^ 32 ∧ h < 2 ^ 32 ∧ c < 256 ∧ cs < 256) ∧ r = .headerFieldTooWide)

/-- 60_exceptions.md R150, R159; 10_state.md R33, R42: a unit outside a pass, in IDLE, DONE or ERROR, stays
as it is, whole, until its own start command. So a result stays readable, and ERROR is left only by a
start. -/
def Obligations.ErrorIsLeftOnlyByAStart : Prop :=
  ∀ s t : State, step s = .next t →
    ((s.dec.phase = .idle ∨ s.dec.phase = .done ∨ s.dec.phase = .error) →
      (∀ ib, ¬s.hostNext (.decStart ib)) → t.dec = s.dec) ∧
    ((s.enc.phase = .idle ∨ s.enc.phase = .done ∨ s.enc.phase = .error) →
      (∀ w h c cs pb, ¬s.hostNext (.encStart w h c cs pb)) → t.enc = s.enc)

/-- 10_state.md R35, R44, R54, R60; 00_scope.md R16: only a start command of a unit writes its operand
buffer or its header register, and no step writes the parameters. What an error of DEC leaves in its header
register is free (log entry 2); ENC has no error but at its start. -/
def Obligations.OperandsHeaderAndParametersStay : Prop :=
  ∀ s t : State, step s = .next t →
    t.params = s.params ∧
    ((∀ ib, ¬s.hostNext (.decStart ib)) → t.dec.ib = s.dec.ib ∧
      (s.dec.phase = .stream → t.dec.phase = .error ∨ t.dec.hdr = s.dec.hdr) ∧
      (s.dec.phase ≠ .stream → t.dec.hdr = s.dec.hdr)) ∧
    ((∀ w h c cs pb, ¬s.hostNext (.encStart w h c cs pb)) →
      t.enc.pb = s.enc.pb ∧ t.enc.hdr = s.enc.hdr)

/-- 42_decoder.md R138: every pass ends. A DEC left to itself leaves STREAM within one step per byte
left, one per pixel owed, and one for the end: from the start step, N + T - 13. That an empty agenda lets DEC move
is the model's choice (log entry 3). -/
def Obligations.EveryDecPassEnds : Prop :=
  ∀ s : State, s.Inv → s.agenda = [] → s.dec.phase = .stream →
    reachesWithin s ((s.dec.N - s.dec.pos) + (s.dec.T - s.dec.n) + 1)
      fun t => t.dec.phase = .done ∨ t.dec.phase = .error

/-- 41_encoder.md R105, R117: an ENC left to itself is DONE after one step per pixel left and the finish
step. That an empty agenda with DEC in no pass lets ENC move is the model's choice (log entry 3). An ENC
already in FINISH is FinishWritesTheMarker's; beside a DEC in a pass, ENC waits until that pass ends
(EveryDecPassEnds). -/
def Obligations.EveryEncPassEnds : Prop :=
  ∀ s : State, s.Inv → s.agenda = [] → s.dec.busy = false → s.enc.phase = .pixels →
    reachesWithin s (s.enc.T - s.enc.k + 1) fun t => t.enc.phase = .done

/-- 42_decoder.md R140: for any valid pixel buffer and header, the stream ENC makes of them, given to
DEC, gives them back, channel for channel. That the runs go on from an empty agenda is the model's choice
(log entry 3). -/
def Obligations.RoundTrip : Prop :=
  ∀ (w h c cs : Nat) (pb : List Byte) (s : State), validEncHeader w h c cs = true →
    pb.length = w * h * c → s.agenda = [.host (.encStart w h c cs pb)] → s.enc.busy = false →
    s.dec.busy = false →
    reaches s fun t => t.enc.phase = .done ∧
      ∃ bytes, Memory.readBytes t.enc.ob 0 t.enc.oc = some bytes ∧
        ∀ s' : State, s'.agenda = [.host (.decStart bytes)] → s'.dec.busy = false →
          reaches s' fun t' => t'.dec.phase = .done ∧
            t'.dec.hdr.W.toNat = w ∧ t'.dec.hdr.H.toNat = h ∧ t'.dec.hdr.C.toNat = c ∧
            t'.dec.hdr.CS.toNat = cs ∧
            Memory.readBytes t'.dec.po 0 pb.length = some pb
end

