-- ==== Sys2Proof/Laws/Decode.lean ====
section
/-! SUPPORT. The laws of fields and bytes: what the encoder puts into a byte the decoder takes out of it,
and the other way round; big-endian integers. -/

namespace Sys2Proof

/-! ### Big-endian integers -/

/-- The four bytes of a u32 give it back. -/
theorem be32_u32Byte (w : U32) : be32 (u32Byte w 3) (u32Byte w 2) (u32Byte w 1) (u32Byte w 0) = w := by
  apply BitVec.eq_of_toNat_eq
  simp [be32, u32Byte, Nat.shiftRight_eq_div_pow]
  have := w.isLt
  omega

/-- A u32 made of four bytes has those bytes. -/
theorem u32Byte_be32 (x3 x2 x1 x0 : Byte) :
    u32Byte (be32 x3 x2 x1 x0) 3 = x3 ∧ u32Byte (be32 x3 x2 x1 x0) 2 = x2 ∧
    u32Byte (be32 x3 x2 x1 x0) 1 = x1 ∧ u32Byte (be32 x3 x2 x1 x0) 0 = x0 := by
  have := x3.isLt; have := x2.isLt; have := x1.isLt; have := x0.isLt
  refine ⟨?_, ?_, ?_, ?_⟩ <;> apply BitVec.eq_of_toNat_eq <;>
    simp [be32, u32Byte, Nat.shiftRight_eq_div_pow] <;> omega

/-! ### From operands to bytes and back -/

theorem bits_lt (b : Byte) (lo width : Nat) : bits b lo width < 2 ^ width :=
  Nat.mod_lt _ (Nat.two_pow_pos width)

/-- An operand in its range is a field value plus the range's lower bound. -/
theorem inRange_fin (k : Nat) {lo hi x : Int} (h : inRange lo hi x) (hk : hi - lo + 1 = k) :
    ∃ a : Fin k, x = (a.val : Int) + lo :=
  ⟨⟨(x - lo).toNat, by omega⟩, by simp; omega⟩

theorem indexByte (idx : Fin 64) :
    chunkKind (BitVec.ofNat 8 idx.val) = .index ∧ bits (BitVec.ofNat 8 idx.val) 0 6 = idx.val := by
  revert idx; decide

theorem diffByte : ∀ x y z : Fin 4,
    let b := (0x40 : Byte) ||| (biased ((x.val : Int) + -2) 2 <<< 4) |||
      (biased ((y.val : Int) + -2) 2 <<< 2) ||| biased ((z.val : Int) + -2) 2
    chunkKind b = .diff ∧ bits b 4 2 = x.val ∧ bits b 2 2 = y.val ∧ bits b 0 2 = z.val ∧
      b = BitVec.ofNat 8 (64 + 16 * x.val + 4 * y.val + z.val) := by
  decide

set_option maxRecDepth 4000 in
theorem lumaByte0 : ∀ x : Fin 64,
    let b := (0x80 : Byte) ||| biased ((x.val : Int) + -32) 32
    chunkKind b = .luma ∧ bits b 0 6 = x.val ∧ b = BitVec.ofNat 8 (128 + x.val) := by
  decide

set_option maxRecDepth 10000 in
theorem lumaByte1 : ∀ y z : Fin 16,
    let b := (biased ((y.val : Int) + -8) 8 <<< 4) ||| biased ((z.val : Int) + -8) 8
    bits b 4 4 = y.val ∧ bits b 0 4 = z.val ∧ b = BitVec.ofNat 8 (16 * y.val + z.val) := by
  decide

theorem runByte : ∀ n : Fin 62,
    let b := (0xC0 : Byte) ||| biased ((n.val + 1 : Nat) : Int) (-1)
    chunkKind b = .run ∧ bits b 0 6 = n.val ∧ b = BitVec.ofNat 8 (192 + n.val) := by
  decide

/-! ### From bytes to operands and back -/

set_option maxRecDepth 10000 in
theorem index_of_byte : ∀ b : Byte, chunkKind b = .index →
    BitVec.ofNat 8 (Fin.ofNat 64 (bits b 0 6)).val = b := by
  decide

set_option maxRecDepth 10000 in
theorem diff_of_byte : ∀ b : Byte, chunkKind b = .diff →
    (0x40 ||| (biased (unbiased (bits b 4 2) 2) 2 <<< 4) ||| (biased (unbiased (bits b 2 2) 2) 2 <<< 2) |||
      biased (unbiased (bits b 0 2) 2) 2) = b := by
  decide

set_option maxRecDepth 10000 in
theorem luma_of_byte0 : ∀ b : Byte, chunkKind b = .luma →
    (0x80 ||| biased (unbiased (bits b 0 6) 32) 32) = b := by
  decide

set_option maxRecDepth 10000 in
theorem luma_of_byte1 : ∀ b : Byte,
    ((biased (unbiased (bits b 4 4) 8) 8 <<< 4) ||| biased (unbiased (bits b 0 4) 8) 8) = b := by
  decide

set_option maxRecDepth 10000 in
theorem run_of_byte : ∀ b : Byte, chunkKind b = .run →
    (0xC0 ||| biased ((bits b 0 6 + 1 : Nat) : Int) (-1)) = b ∧ bits b 0 6 + 1 ≤ 62 := by
  decide

set_option maxRecDepth 10000 in
theorem tag_of_byte : ∀ b : Byte, (chunkKind b = .rgb → b = 0xFE) ∧ (chunkKind b = .rgba → b = 0xFF) := by
  decide

end Sys2Proof
end

