-- ==== Sys2Proof/Laws/Memory.lean ====
section
/-! SUPPORT. The laws of byte spaces and buffers: read after write, writes elsewhere, the canonical form,
and spaces that hold exactly the bytes 0..n-1. -/

namespace Sys2Proof.Machine

/-! ### One byte -/

theorem Memory.read_write_same (m : Memory) (a : Nat) (v : Byte) :
    (Memory.write m a v).read a = some v := by
  induction m with
  | nil => simp [Memory.write, Memory.read]
  | cons c rest ih =>
    obtain ⟨b, w⟩ := c
    simp only [Memory.write]
    split
    · simp [Memory.read]
    · split
      · simp [Memory.read]
      · simp [Memory.read, *]

theorem Memory.read_write_other (m : Memory) (v : Byte) {a b : Nat} (h : b ≠ a) :
    (Memory.write m a v).read b = m.read b := by
  induction m with
  | nil => simp [Memory.write, Memory.read, h]
  | cons c rest ih =>
    obtain ⟨d, w⟩ := c
    simp only [Memory.write]
    split
    · simp [Memory.read, h]
    · split
      · next _ hd => subst hd; simp [Memory.read, h]
      · simp only [Memory.read, ih]

/-- Every address listed after a write is the one written or was listed before. -/
theorem Memory.mem_write {m : Memory} {a : Nat} {v : Byte} {c : Host.Cell}
    (h : c ∈ Memory.write m a v) : c = (a, v) ∨ c ∈ m := by
  induction m with
  | nil => simpa [Memory.write] using h
  | cons d rest ih =>
    obtain ⟨b, w⟩ := d
    simp only [Memory.write] at h
    split at h
    · simpa using h
    · split at h
      · rcases List.mem_cons.1 h with h | h
        · exact .inl h
        · exact .inr (List.mem_cons_of_mem _ h)
      · rcases List.mem_cons.1 h with h | h
        · exact .inr (by simp [h])
        · rcases ih h with h | h
          · exact .inl h
          · exact .inr (List.mem_cons_of_mem _ h)

theorem Memory.wf_write {m : Memory} (a : Nat) (v : Byte) (h : m.wf) : (Memory.write m a v).wf := by
  induction m with
  | nil => simp [Memory.write, Memory.wf]
  | cons d rest ih =>
    obtain ⟨b, w⟩ := d
    obtain ⟨hb, hr⟩ := List.pairwise_cons.1 h
    simp only [Memory.write]
    split
    · next hab =>
      refine List.pairwise_cons.2 ⟨fun c hc => ?_, h⟩
      rcases List.mem_cons.1 hc with rfl | hc
      · exact hab
      · exact hab.trans (hb c hc)
    · split
      · next _ hab => exact List.pairwise_cons.2 ⟨fun c hc => hab ▸ hb c hc, hr⟩
      · next h1 h2 =>
        refine List.pairwise_cons.2 ⟨fun c hc => ?_, ih hr⟩
        rcases Memory.mem_write hc with rfl | hc
        · show b < a; omega
        · exact hb c hc

/-! ### Several bytes -/

theorem Memory.read_writeBytes_outside (bs : List Byte) (m : Memory) {a b : Nat}
    (h : b < a ∨ a + bs.length ≤ b) : (Memory.writeBytes m a bs).read b = m.read b := by
  induction bs generalizing m a with
  | nil => rfl
  | cons v bs ih =>
    simp only [List.length_cons] at h
    rw [Memory.writeBytes, ih _ (by omega), Memory.read_write_other _ _ (by omega)]

theorem Memory.readBytes_congr {m m' : Memory} (n : Nat) {a : Nat}
    (h : ∀ b, a ≤ b → b < a + n → m'.read b = m.read b) :
    Memory.readBytes m' a n = Memory.readBytes m a n := by
  induction n generalizing a with
  | zero => rfl
  | succ n ih =>
    simp only [Memory.readBytes]
    rw [h a (by omega) (by omega), ih fun b h1 h2 => h b (by omega) (by omega)]

/-- What was written is read back. -/
theorem Memory.readBytes_writeBytes (bs : List Byte) (m : Memory) (a : Nat) :
    Memory.readBytes (Memory.writeBytes m a bs) a bs.length = some bs := by
  induction bs generalizing m a with
  | nil => rfl
  | cons v bs ih =>
    simp only [Memory.writeBytes, List.length_cons, Memory.readBytes, ih]
    rw [Memory.read_writeBytes_outside _ _ (by omega), Memory.read_write_same]
    rfl

theorem Memory.readBytes_add (m : Memory) (a n k : Nat) :
    Memory.readBytes m a (n + k)
      = (Memory.readBytes m a n).bind fun bs => (Memory.readBytes m (a + n) k).map (bs ++ ·) := by
  induction n generalizing a with
  | zero => simp [Memory.readBytes]
  | succ n ih =>
    have e1 : n + 1 + k = (n + k) + 1 := by omega
    have e2 : a + 1 + n = a + (n + 1) := by omega
    rw [e1]
    simp only [Memory.readBytes, ih, e2]
    cases Memory.read m a <;> simp
    cases Memory.readBytes m (a + 1) n <;> simp
    cases Memory.readBytes m (a + (n + 1)) k <;> simp

theorem Memory.length_of_readBytes {m : Memory} {a n : Nat} {bs : List Byte}
    (h : Memory.readBytes m a n = some bs) : bs.length = n := by
  induction n generalizing a bs with
  | zero => simp only [Memory.readBytes, Option.some.injEq] at h; simp [← h]
  | succ n ih =>
    simp only [Memory.readBytes] at h
    cases h1 : Memory.read m a with
    | none => simp [h1] at h
    | some b =>
      cases h2 : Memory.readBytes m (a + 1) n with
      | none => simp [h1, h2] at h
      | some bs' => simp [h1, h2] at h; subst h; simp [ih h2]

theorem Memory.wf_writeBytes (bs : List Byte) {m : Memory} (a : Nat) (h : m.wf) :
    (Memory.writeBytes m a bs).wf := by
  induction bs generalizing m a with
  | nil => exact h
  | cons v bs ih => exact ih _ (Memory.wf_write a v h)

theorem Memory.wf_ofCells (cells : List Host.Cell) : (Memory.ofCells cells).wf := by
  suffices ∀ m : Memory, m.wf → (cells.foldl (fun m c => Memory.write m c.1 c.2) m : Memory).wf from
    this [] List.Pairwise.nil
  induction cells with
  | nil => exact fun _ h => h
  | cons c cells ih => exact fun m h => ih _ (Memory.wf_write _ _ h)

/-! ### Spaces that hold exactly the bytes 0..n-1 -/

theorem Memory.covers_nil : Memory.covers [] 0 := rfl

/-- Exactly the bytes 0..n-1, so in canonical form. -/
theorem Memory.wf_of_covers {m : Memory} {n : Nat} (h : m.covers n) : m.wf := by
  have : (m.map (·.1)).Pairwise (· < ·) := h ▸ List.pairwise_lt_range
  exact List.pairwise_map.1 this

/-- A write past every listed address goes to the end. -/
theorem Memory.write_at_end {m : Memory} {a : Nat} (v : Byte) (h : ∀ c ∈ m, c.1 < a) :
    Memory.write m a v = m ++ [(a, v)] := by
  induction m with
  | nil => rfl
  | cons d rest ih =>
    obtain ⟨b, w⟩ := d
    have hb : b < a := h _ (List.mem_cons_self ..)
    simp only [Memory.write]
    rw [if_neg (by omega), if_neg (by omega), ih fun c hc => h c (List.mem_cons_of_mem _ hc)]
    rfl

theorem Memory.covers_lt {m : Memory} {n : Nat} (h : m.covers n) {c : Host.Cell} (hc : c ∈ m) : c.1 < n := by
  have : c.1 ∈ m.map (·.1) := List.mem_map.2 ⟨c, hc, rfl⟩
  rw [h] at this
  exact List.mem_range.1 this

theorem Memory.covers_write {m : Memory} {n : Nat} (v : Byte) (h : m.covers n) :
    (Memory.write m n v).covers (n + 1) := by
  rw [Memory.write_at_end v fun c hc => Memory.covers_lt h hc]
  show (m ++ [(n, v)]).map (·.1) = _
  rw [List.map_append, show m.map (·.1) = List.range n from h, List.range_succ]
  rfl

theorem Memory.covers_writeBytes (bs : List Byte) {m : Memory} {n : Nat} (h : m.covers n) :
    (Memory.writeBytes m n bs).covers (n + bs.length) := by
  induction bs generalizing m n with
  | nil => exact h
  | cons v bs ih =>
    have := ih (Memory.covers_write v h)
    rw [List.length_cons, show n + (bs.length + 1) = n + 1 + bs.length by omega]
    exact this

theorem Memory.read_of_mem {m : Memory} {a : Nat} (h : a ∈ m.map (·.1)) : ∃ v, m.read a = some v := by
  induction m with
  | nil => simp at h
  | cons d rest ih =>
    obtain ⟨b, w⟩ := d
    by_cases hab : a = b
    · exact ⟨w, by simp [Memory.read, hab]⟩
    · obtain ⟨v, hv⟩ := ih (by simpa [hab] using h)
      exact ⟨v, by simp [Memory.read, hab, hv]⟩

theorem Memory.read_of_covers {m : Memory} {n a : Nat} (h : m.covers n) (ha : a < n) :
    ∃ v, m.read a = some v :=
  Memory.read_of_mem (h ▸ List.mem_range.2 ha)

theorem Memory.readBytes_of_covers {m : Memory} {n : Nat} (k : Nat) {a : Nat} (h : m.covers n)
    (ha : a + k ≤ n) : ∃ bs, Memory.readBytes m a k = some bs ∧ bs.length = k := by
  induction k generalizing a with
  | zero => exact ⟨[], rfl, rfl⟩
  | succ k ih =>
    obtain ⟨v, hv⟩ := Memory.read_of_covers h (a := a) (by omega)
    obtain ⟨bs, hbs, hl⟩ := ih (a := a + 1) (by omega)
    exact ⟨v :: bs, by simp [Memory.readBytes, hv, hbs], by simp [hl]⟩

/-! ### Buffers -/

@[simp] theorem Buffer.ofBytes_len (bs : List Byte) : (Buffer.ofBytes bs).len = bs.length := rfl

/-- A buffer made from a byte sequence holds exactly its bytes. -/
theorem Buffer.complete_ofBytes (bs : List Byte) : (Buffer.ofBytes bs).complete := by
  have := Memory.covers_writeBytes bs Memory.covers_nil
  rwa [Nat.zero_add] at this

theorem Buffer.complete_empty : Buffer.empty.complete := rfl

/-- Bytes that are read as a concatenation are read in two parts. -/
theorem Memory.readBytes_append {m : Memory} {a : Nat} {xs ys : List Byte}
    (h : Memory.readBytes m a (xs.length + ys.length) = some (xs ++ ys)) :
    Memory.readBytes m a xs.length = some xs ∧ Memory.readBytes m (a + xs.length) ys.length = some ys := by
  rw [Memory.readBytes_add, Option.bind_eq_some_iff] at h
  obtain ⟨xs', h1, h⟩ := h
  rw [Option.map_eq_some_iff] at h
  obtain ⟨ys', h2, h⟩ := h
  obtain ⟨rfl, rfl⟩ := List.append_inj h (Memory.length_of_readBytes h1)
  exact ⟨h1, h2⟩

/-- The bytes of a buffer made from a byte sequence are those of the sequence. -/
theorem Buffer.read_ofBytes (pre mid post : List Byte) :
    (Buffer.ofBytes (pre ++ mid ++ post)).read pre.length mid.length = some mid := by
  have h := Memory.readBytes_writeBytes (pre ++ mid ++ post) [] 0
  rw [List.length_append] at h
  have h2 := (Memory.readBytes_append h).1
  rw [List.length_append] at h2
  have h3 := (Memory.readBytes_append h2).2
  rwa [Nat.zero_add] at h3

/-! ### Parts of a read -/

/-- The first byte of a longer read, read alone. -/
theorem Memory.readBytes_one {m : Memory} {a n : Nat} {b : Byte} {bs : List Byte}
    (h : Memory.readBytes m a (n + 1) = some (b :: bs)) : Memory.readBytes m a 1 = some [b] := by
  have h2 : Memory.readBytes m a ([b].length + bs.length) = some ([b] ++ bs) := by
    have hl := Memory.length_of_readBytes h
    simp only [List.length_cons] at hl
    rw [List.length_singleton, show 1 + bs.length = n + 1 by omega]
    exact h
  exact (Memory.readBytes_append h2).1

/-- A space that holds exactly the bytes 0..n-1 holds no other. -/
theorem Memory.read_of_covers_none {m : Memory} {n a : Nat} (h : m.covers n) (ha : n ≤ a) : m.read a = none := by
  have hm : ∀ c ∈ m, c.1 ≠ a := fun c hc => by have := Memory.covers_lt h hc; omega
  clear h
  induction m with
  | nil => rfl
  | cons c rest ih =>
    obtain ⟨b, w⟩ := c
    have hb : a ≠ b := (hm (b, w) (List.mem_cons_self ..)).symm
    simp only [Memory.read, if_neg hb]
    exact ih fun c hc => hm c (List.mem_cons_of_mem _ hc)

/-- What is read lies within the space. -/
theorem Memory.le_of_readBytes {m : Memory} {n k a : Nat} {bs : List Byte} (h : m.covers n)
    (hr : Memory.readBytes m a k = some bs) (hk : 0 < k) : a + k ≤ n := by
  by_contra hc
  obtain ⟨j, rfl⟩ : ∃ j, k = j + 1 := ⟨k - 1, by omega⟩
  rw [Memory.readBytes_add, Option.bind_eq_some_iff] at hr
  obtain ⟨xs, -, hr⟩ := hr
  rw [Option.map_eq_some_iff] at hr
  obtain ⟨ys, hr, -⟩ := hr
  have hn : Memory.read m (a + j) = none := Memory.read_of_covers_none h (by omega)
  simp [Memory.readBytes, hn] at hr

/-- The first bytes of a buffer made from a byte sequence. -/
theorem Buffer.read_ofBytes_prefix {bs : List Byte} {n : Nat} (h : n ≤ bs.length) :
    (Buffer.ofBytes bs).read 0 n = some (bs.take n) := by
  have := Buffer.read_ofBytes [] (bs.take n) (bs.drop n)
  simp only [List.nil_append, List.take_append_drop, List.length_nil, List.length_take] at this
  rwa [Nat.min_eq_left h] at this

end Sys2Proof.Machine
end

