-- ==== Sys2Proof/Laws/State.lean ====
section
/-! SUPPORT. What each shared operation does to each field, so that no proof unfolds a record update. What
error entry leaves in the registers that it leaves free is no lemma: nothing is known of it. -/

namespace Sys2Proof.Machine

/-! ### DEC -/

@[simp] theorem advance_phase (len : Nat) (s : Dec) : (advance len s).phase = s.phase := rfl
@[simp] theorem advance_err (len : Nat) (s : Dec) : (advance len s).err = s.err := rfl
@[simp] theorem advance_hdr (len : Nat) (s : Dec) : (advance len s).hdr = s.hdr := rfl
@[simp] theorem advance_N (len : Nat) (s : Dec) : (advance len s).N = s.N := rfl
@[simp] theorem advance_pos (len : Nat) (s : Dec) : (advance len s).pos = s.pos + len := rfl
@[simp] theorem advance_n (len : Nat) (s : Dec) : (advance len s).n = s.n := rfl
@[simp] theorem advance_prev (len : Nat) (s : Dec) : (advance len s).prev = s.prev := rfl
@[simp] theorem advance_run (len : Nat) (s : Dec) : (advance len s).run = s.run := rfl
@[simp] theorem advance_cache (len : Nat) (s : Dec) : (advance len s).cache = s.cache := rfl
@[simp] theorem advance_ib (len : Nat) (s : Dec) : (advance len s).ib = s.ib := rfl
@[simp] theorem advance_po (len : Nat) (s : Dec) : (advance len s).po = s.po := rfl
@[simp] theorem advance_errors (len : Nat) (s : Dec) : (advance len s).errors = s.errors := rfl
@[simp] theorem pixOut_phase (p : Pixel) (s : Dec) : (pixOut p s).phase = s.phase := rfl
@[simp] theorem pixOut_err (p : Pixel) (s : Dec) : (pixOut p s).err = s.err := rfl
@[simp] theorem pixOut_hdr (p : Pixel) (s : Dec) : (pixOut p s).hdr = s.hdr := rfl
@[simp] theorem pixOut_N (p : Pixel) (s : Dec) : (pixOut p s).N = s.N := rfl
@[simp] theorem pixOut_pos (p : Pixel) (s : Dec) : (pixOut p s).pos = s.pos := rfl
@[simp] theorem pixOut_n (p : Pixel) (s : Dec) : (pixOut p s).n = s.n + 1 := rfl
@[simp] theorem pixOut_prev (p : Pixel) (s : Dec) : (pixOut p s).prev = s.prev := rfl
@[simp] theorem pixOut_run (p : Pixel) (s : Dec) : (pixOut p s).run = s.run := rfl
@[simp] theorem pixOut_cache (p : Pixel) (s : Dec) : (pixOut p s).cache = s.cache := rfl
@[simp] theorem pixOut_ib (p : Pixel) (s : Dec) : (pixOut p s).ib = s.ib := rfl
@[simp] theorem pixOut_errors (p : Pixel) (s : Dec) : (pixOut p s).errors = s.errors := rfl
@[simp] theorem newPixel_phase (p : Pixel) (s : Dec) : (newPixel p s).phase = s.phase := rfl
@[simp] theorem newPixel_err (p : Pixel) (s : Dec) : (newPixel p s).err = s.err := rfl
@[simp] theorem newPixel_hdr (p : Pixel) (s : Dec) : (newPixel p s).hdr = s.hdr := rfl
@[simp] theorem newPixel_N (p : Pixel) (s : Dec) : (newPixel p s).N = s.N := rfl
@[simp] theorem newPixel_pos (p : Pixel) (s : Dec) : (newPixel p s).pos = s.pos := rfl
@[simp] theorem newPixel_n (p : Pixel) (s : Dec) : (newPixel p s).n = s.n + 1 := rfl
@[simp] theorem newPixel_prev (p : Pixel) (s : Dec) : (newPixel p s).prev = p := rfl
@[simp] theorem newPixel_run (p : Pixel) (s : Dec) : (newPixel p s).run = s.run := rfl
@[simp] theorem newPixel_cache (p : Pixel) (s : Dec) : (newPixel p s).cache = Cache.write s.cache (hash p) p := rfl
@[simp] theorem newPixel_ib (p : Pixel) (s : Dec) : (newPixel p s).ib = s.ib := rfl
@[simp] theorem newPixel_errors (p : Pixel) (s : Dec) : (newPixel p s).errors = s.errors := rfl
@[simp] theorem newPixel_po (p : Pixel) (s : Dec) : (newPixel p s).po = (pixOut p s).po := rfl
@[simp] theorem repeatPixel_phase (s : Dec) : (repeatPixel s).phase = s.phase := rfl
@[simp] theorem repeatPixel_err (s : Dec) : (repeatPixel s).err = s.err := rfl
@[simp] theorem repeatPixel_hdr (s : Dec) : (repeatPixel s).hdr = s.hdr := rfl
@[simp] theorem repeatPixel_N (s : Dec) : (repeatPixel s).N = s.N := rfl
@[simp] theorem repeatPixel_pos (s : Dec) : (repeatPixel s).pos = s.pos := rfl
@[simp] theorem repeatPixel_n (s : Dec) : (repeatPixel s).n = s.n + 1 := rfl
@[simp] theorem repeatPixel_prev (s : Dec) : (repeatPixel s).prev = s.prev := rfl
@[simp] theorem repeatPixel_run (s : Dec) : (repeatPixel s).run = s.run - 1 := rfl
@[simp] theorem repeatPixel_cache (s : Dec) : (repeatPixel s).cache = s.cache := rfl
@[simp] theorem repeatPixel_ib (s : Dec) : (repeatPixel s).ib = s.ib := rfl
@[simp] theorem repeatPixel_errors (s : Dec) : (repeatPixel s).errors = s.errors := rfl
@[simp] theorem repeatPixel_po (s : Dec) : (repeatPixel s).po = (pixOut s.prev s).po := rfl
@[simp] theorem raiseDec_phase (e : ErrKind) (s : Dec) : (raiseDec e s).phase = .error := rfl
@[simp] theorem raiseDec_err (e : ErrKind) (s : Dec) : (raiseDec e s).err = e := rfl
@[simp] theorem raiseDec_ib (e : ErrKind) (s : Dec) : (raiseDec e s).ib = s.ib := rfl
@[simp] theorem raiseDec_errors (e : ErrKind) (s : Dec) : (raiseDec e s).errors = s.errors + 1 := rfl
@[simp] theorem initDec_phase (hdr : Header) (s : Dec) : (initDec hdr s).phase = .stream := rfl
@[simp] theorem initDec_err (hdr : Header) (s : Dec) : (initDec hdr s).err = .none := rfl
@[simp] theorem initDec_hdr (hdr : Header) (s : Dec) : (initDec hdr s).hdr = hdr := rfl
@[simp] theorem initDec_N (hdr : Header) (s : Dec) : (initDec hdr s).N = s.ib.len := rfl
@[simp] theorem initDec_pos (hdr : Header) (s : Dec) : (initDec hdr s).pos = 14 := rfl
@[simp] theorem initDec_n (hdr : Header) (s : Dec) : (initDec hdr s).n = 0 := rfl
@[simp] theorem initDec_prev (hdr : Header) (s : Dec) : (initDec hdr s).prev = Pixel.seed := rfl
@[simp] theorem initDec_run (hdr : Header) (s : Dec) : (initDec hdr s).run = 0 := rfl
@[simp] theorem initDec_cache (hdr : Header) (s : Dec) : (initDec hdr s).cache = Cache.cleared := rfl
@[simp] theorem initDec_ib (hdr : Header) (s : Dec) : (initDec hdr s).ib = s.ib := rfl
@[simp] theorem initDec_po (hdr : Header) (s : Dec) : (initDec hdr s).po = [] := rfl
@[simp] theorem initDec_errors (hdr : Header) (s : Dec) : (initDec hdr s).errors = s.errors := rfl

/-! ### ENC -/

@[simp] theorem emit_phase (bs : List Byte) (s : Enc) : (emit bs s).phase = s.phase := rfl
@[simp] theorem emit_err (bs : List Byte) (s : Enc) : (emit bs s).err = s.err := rfl
@[simp] theorem emit_hdr (bs : List Byte) (s : Enc) : (emit bs s).hdr = s.hdr := rfl
@[simp] theorem emit_k (bs : List Byte) (s : Enc) : (emit bs s).k = s.k := rfl
@[simp] theorem emit_oc (bs : List Byte) (s : Enc) : (emit bs s).oc = s.oc + bs.length := rfl
@[simp] theorem emit_prev (bs : List Byte) (s : Enc) : (emit bs s).prev = s.prev := rfl
@[simp] theorem emit_run (bs : List Byte) (s : Enc) : (emit bs s).run = s.run := rfl
@[simp] theorem emit_cache (bs : List Byte) (s : Enc) : (emit bs s).cache = s.cache := rfl
@[simp] theorem emit_pb (bs : List Byte) (s : Enc) : (emit bs s).pb = s.pb := rfl
@[simp] theorem emit_ob (bs : List Byte) (s : Enc) : (emit bs s).ob = Memory.writeBytes s.ob s.oc bs := rfl
@[simp] theorem emit_errors (bs : List Byte) (s : Enc) : (emit bs s).errors = s.errors := rfl
@[simp] theorem initEnc_phase (hdr : Header) (s : Enc) : (initEnc hdr s).phase = s.phase := rfl
@[simp] theorem initEnc_err (hdr : Header) (s : Enc) : (initEnc hdr s).err = .none := rfl
@[simp] theorem initEnc_hdr (hdr : Header) (s : Enc) : (initEnc hdr s).hdr = hdr := rfl
@[simp] theorem initEnc_k (hdr : Header) (s : Enc) : (initEnc hdr s).k = 0 := rfl
@[simp] theorem initEnc_oc (hdr : Header) (s : Enc) : (initEnc hdr s).oc = 0 := rfl
@[simp] theorem initEnc_prev (hdr : Header) (s : Enc) : (initEnc hdr s).prev = Pixel.seed := rfl
@[simp] theorem initEnc_run (hdr : Header) (s : Enc) : (initEnc hdr s).run = 0 := rfl
@[simp] theorem initEnc_cache (hdr : Header) (s : Enc) : (initEnc hdr s).cache = Cache.cleared := rfl
@[simp] theorem initEnc_pb (hdr : Header) (s : Enc) : (initEnc hdr s).pb = s.pb := rfl
@[simp] theorem initEnc_ob (hdr : Header) (s : Enc) : (initEnc hdr s).ob = [] := rfl
@[simp] theorem initEnc_errors (hdr : Header) (s : Enc) : (initEnc hdr s).errors = s.errors := rfl
@[simp] theorem raiseEnc_phase (e : ErrKind) (s : Enc) : (raiseEnc e s).phase = .error := rfl
@[simp] theorem raiseEnc_err (e : ErrKind) (s : Enc) : (raiseEnc e s).err = e := rfl
@[simp] theorem raiseEnc_pb (e : ErrKind) (s : Enc) : (raiseEnc e s).pb = s.pb := rfl
@[simp] theorem raiseEnc_errors (e : ErrKind) (s : Enc) : (raiseEnc e s).errors = s.errors + 1 := rfl

/-! ### The machine -/

@[simp] theorem State.popped_enc (s : State) : s.popped.enc = s.enc := rfl
@[simp] theorem State.popped_dec (s : State) : s.popped.dec = s.dec := rfl
@[simp] theorem State.popped_params (s : State) : s.popped.params = s.params := rfl
@[simp] theorem State.popped_reply (s : State) : s.popped.reply = s.reply := rfl
@[simp] theorem State.popped_agenda (s : State) : s.popped.agenda = s.agenda.tail := rfl

end Sys2Proof.Machine
end

