-- ==== Sys2Proof/Laws/Ops.lean ====
section
/-! SUPPORT. One lemma per shared operation that says everything it does: DEC's output and new-pixel
update, ENC's output, flush and pixel coding, the status and operand predicates. -/

namespace Sys2Proof.Machine

/-! ### Fields and operands -/

theorem legalFields_iff (c cs : Byte) :
    legalFields c cs = true ↔ (c = 3 ∨ c = 4) ∧ (cs = 0 ∨ cs = 1) := by
  simp [legalFields]

theorem busy_dec_iff (d : Dec) : d.busy = true ↔ d.phase = .stream := by
  unfold Dec.busy; cases d.phase <;> simp

theorem busy_enc_iff (e : Enc) : e.busy = true ↔ e.phase = .pixels ∨ e.phase = .finish := by
  unfold Enc.busy; cases e.phase <;> simp

/-! ### The colour cache -/

@[simp] theorem Cache.slot_write_same (c : Cache) (i : Fin 64) (p : Pixel) :
    Cache.slot (Cache.write c i p) i = p := by
  simp [Cache.slot, Cache.write, Vector.get_eq_getElem]

theorem Cache.slot_write_other (c : Cache) (p : Pixel) {i j : Fin 64} (h : j ≠ i) :
    Cache.slot (Cache.write c i p) j = Cache.slot c j := by
  have : i.val ≠ j.val := fun hv => h (Fin.ext hv.symm)
  simp [Cache.slot, Cache.write, Vector.get_eq_getElem, this]

@[simp] theorem Cache.slot_cleared (i : Fin 64) : Cache.slot Cache.cleared i = Pixel.zero := by
  simp [Cache.slot, Cache.cleared, Vector.get_eq_getElem]

theorem slotWritten_write (c : Cache) (p : Pixel) : slotWritten c (Cache.write c (hash p) p) p :=
  ⟨Cache.slot_write_same .., fun _ hi => Cache.slot_write_other _ _ hi⟩

/-! ### DEC's output -/

/-- `pixOut` writes the pixel's bytes and no other (42_decoder.md R124). -/
theorem pixelOut_pixOut (p : Pixel) (d : Dec) : d.pixelOut (pixOut p d) p := by
  have hb : ∀ (m : Memory) (b : Nat) (a : Nat),
      (Memory.writeBytes m b [p.r, p.g, p.b]).read a
        = if a = b then some p.r else if a = b + 1 then some p.g else if a = b + 2 then some p.b
          else m.read a := by
    intro m b a
    simp only [Memory.writeBytes]
    split
    · next h =>
      subst h
      rw [Memory.read_write_other _ _ (by omega), Memory.read_write_other _ _ (by omega),
        Memory.read_write_same]
    · split
      · next h =>
        subst h
        rw [Memory.read_write_other _ _ (by omega), Memory.read_write_same]
      · split
        · next h => subst h; exact Memory.read_write_same ..
        · rw [Memory.read_write_other _ _ (by omega), Memory.read_write_other _ _ (by omega),
            Memory.read_write_other _ _ (by omega)]
  have ha : ∀ (m : Memory) (b a : Nat),
      (Memory.writeBytes m b [p.a]).read a = if a = b then some p.a else m.read a := by
    intro m b a
    simp only [Memory.writeBytes]
    split
    · next h => subst h; exact Memory.read_write_same ..
    · next h => exact Memory.read_write_other _ _ h
  unfold Dec.pixelOut pixOut Header.stride
  generalize d.n * d.hdr.C.toNat = base
  by_cases h4 : d.hdr.C = 4
  · simp only [h4, if_true, ha, hb]
    refine ⟨trivial, by simp, by simp, by simp, by simp, fun a h => ?_⟩
    rw [if_neg (by omega), if_neg (by omega), if_neg (by omega), if_neg (by omega)]
  · simp only [h4, if_false, hb]
    refine ⟨trivial, by simp, by simp, by simp, fun h => absurd h (by simp), fun a h => ?_⟩
    rw [if_neg (by omega), if_neg (by omega), if_neg (by omega)]

theorem wf_pixOut (p : Pixel) {d : Dec} (h : d.po.wf) : (pixOut p d).po.wf := by
  unfold pixOut
  dsimp only
  split
  · exact Memory.wf_writeBytes _ _ (Memory.wf_writeBytes _ _ h)
  · exact Memory.wf_writeBytes _ _ h

/-- A pixel appended to an output that is exactly the pixels before it. -/
theorem covers_pixOut (p : Pixel) {d : Dec} (hc : d.hdr.C = 3 ∨ d.hdr.C = 4)
    (h : d.po.covers (d.n * d.hdr.stride)) :
    (pixOut p d).po.covers ((d.n + 1) * d.hdr.stride) := by
  have h3 := Memory.covers_writeBytes [p.r, p.g, p.b] h
  rw [Nat.add_mul, Nat.one_mul]
  unfold pixOut
  dsimp only
  rcases hc with hc | hc
  · rw [if_neg (by rw [hc]; decide), show d.hdr.stride = 3 by simp [Header.stride, hc]] at *
    exact h3
  · rw [if_pos hc, show d.hdr.stride = 4 by simp [Header.stride, hc]] at *
    exact Memory.covers_writeBytes [p.a] h3

/-- `newPixel` of a chunk of `len` bytes is the whole new-pixel update (42_decoder.md R125). -/
theorem newPixelDone_newPixel (p : Pixel) (len : Nat) (d : Dec) :
    d.newPixelDone (newPixel p (advance len d)) len p :=
  ⟨⟨rfl, rfl, rfl, rfl, rfl, rfl⟩, rfl, rfl, rfl, slotWritten_write _ _, pixelOut_pixOut p _⟩

/-! ### ENC's output -/

theorem emitted_emit (bs : List Byte) (e : Enc) : e.emitted (emit bs e) bs :=
  ⟨rfl, Memory.readBytes_writeBytes _ _ _, fun _ h => Memory.read_writeBytes_outside _ _ h⟩

/-- One output after another is one output. -/
theorem Enc.emitted_trans {e e' e'' : Enc} {xs ys : List Byte} (h : e.emitted e' xs)
    (h' : e'.emitted e'' ys) : e.emitted e'' (xs ++ ys) := by
  obtain ⟨h1, h2, h3⟩ := h
  obtain ⟨h1', h2', h3'⟩ := h'
  refine ⟨by rw [h1', h1, List.length_append]; omega, ?_, fun a ha => ?_⟩
  · rw [List.length_append, Memory.readBytes_add]
    rw [Memory.readBytes_congr xs.length (m := e'.ob) fun b hb hb' => h3' b (by omega), h2, ← h1, h2']
    rfl
  · rw [List.length_append] at ha
    rw [h3' a (by omega), h3 a (by omega)]

theorem Enc.emitted_refl (e : Enc) : e.emitted e [] := ⟨rfl, rfl, fun _ _ => rfl⟩

/-- `flushRun` is the pending run's chunk, and leaves no run (41_encoder.md R108). -/
theorem emitted_flushRun (e : Enc) :
    e.emitted (flushRun e) (if 0 < e.run then encode (.run e.run) else []) := by
  unfold flushRun
  split
  · exact emitted_emit _ _
  · exact Enc.emitted_refl _

@[simp] theorem flushRun_run (e : Enc) : (flushRun e).run = 0 := by
  unfold flushRun; split
  · rfl
  · omega

@[simp] theorem flushRun_prev (e : Enc) : (flushRun e).prev = e.prev := by unfold flushRun; split <;> rfl
@[simp] theorem flushRun_cache (e : Enc) : (flushRun e).cache = e.cache := by unfold flushRun; split <;> rfl
@[simp] theorem flushRun_hdr (e : Enc) : (flushRun e).hdr = e.hdr := by unfold flushRun; split <;> rfl
@[simp] theorem flushRun_k (e : Enc) : (flushRun e).k = e.k := by unfold flushRun; split <;> rfl
@[simp] theorem flushRun_pb (e : Enc) : (flushRun e).pb = e.pb := by unfold flushRun; split <;> rfl
@[simp] theorem flushRun_err (e : Enc) : (flushRun e).err = e.err := by unfold flushRun; split <;> rfl
@[simp] theorem flushRun_phase (e : Enc) : (flushRun e).phase = e.phase := by unfold flushRun; split <;> rfl
@[simp] theorem flushRun_errors (e : Enc) : (flushRun e).errors = e.errors := by unfold flushRun; split <;> rfl

/-- A differing pixel is one chunk; the cache changes only where the slot did not hold it
(41_encoder.md R109, R110). -/
theorem codePixel_cases (p : Pixel) (e : Enc) :
    (Cache.slot e.cache (hash p) = p ∧ e.emitted (codePixel p e) (encode (.index (hash p))) ∧
      (codePixel p e).cache = e.cache) ∨
    (Cache.slot e.cache (hash p) ≠ p ∧ e.emitted (codePixel p e) (encode (literalFor p e.prev)) ∧
      slotWritten e.cache (codePixel p e).cache p) := by
  unfold codePixel
  by_cases h : Cache.slot e.cache (hash p) = p
  · rw [if_pos h]; exact .inl ⟨h, emitted_emit _ _, rfl⟩
  · rw [if_neg h]; exact .inr ⟨h, emitted_emit _ _, slotWritten_write _ _⟩

@[simp] theorem codePixel_run (p : Pixel) (e : Enc) : (codePixel p e).run = e.run := by
  unfold codePixel; split <;> rfl
@[simp] theorem codePixel_hdr (p : Pixel) (e : Enc) : (codePixel p e).hdr = e.hdr := by
  unfold codePixel; split <;> rfl
@[simp] theorem codePixel_k (p : Pixel) (e : Enc) : (codePixel p e).k = e.k := by
  unfold codePixel; split <;> rfl
@[simp] theorem codePixel_pb (p : Pixel) (e : Enc) : (codePixel p e).pb = e.pb := by
  unfold codePixel; split <;> rfl
@[simp] theorem codePixel_err (p : Pixel) (e : Enc) : (codePixel p e).err = e.err := by
  unfold codePixel; split <;> rfl
@[simp] theorem codePixel_phase (p : Pixel) (e : Enc) : (codePixel p e).phase = e.phase := by
  unfold codePixel; split <;> rfl
@[simp] theorem codePixel_errors (p : Pixel) (e : Enc) : (codePixel p e).errors = e.errors := by
  unfold codePixel; split <;> rfl

/-- Whatever a pixel step does, `prev` is the pixel afterwards (41_encoder.md R116). -/
@[simp] theorem encPixel_prev (p : Pixel) (e : Enc) : (encPixel p e).prev = p := rfl

/-- The three ways of a pixel step (41_encoder.md R105 to R108). -/
theorem encPixel_cases (p : Pixel) (e : Enc) :
    (p = e.prev ∧ e.run < 62 ∧ encPixel p e = { e with run := e.run + 1 }) ∨
    (p = e.prev ∧ 62 ≤ e.run ∧ encPixel p e = { emit (encode (.run 62)) e with run := 1 }) ∨
    (p ≠ e.prev ∧ encPixel p e = { codePixel p (flushRun e) with prev := p }) := by
  by_cases hp : p = e.prev
  · by_cases hr : e.run < 62
    · refine .inl ⟨hp, hr, ?_⟩
      simp [encPixel, hp, hr]
    · refine .inr (.inl ⟨hp, by omega, ?_⟩)
      simp only [encPixel, hp, hr, Config.runMax, and_false, if_false, if_true]
      rfl
  · exact .inr (.inr ⟨hp, by simp [encPixel, hp]⟩)

/-! ### What a pixel step leaves -/

/-- An output is about `oc` and OB only. -/
theorem Enc.emitted_congr {e e' e'' : Enc} {bs : List Byte} (h : e.emitted e' bs) (ho : e''.oc = e'.oc)
    (hb : e''.ob = e'.ob) : e.emitted e'' bs := by
  unfold Enc.emitted at *
  rw [ho, hb]
  exact h

@[simp] theorem encPixel_hdr (p : Pixel) (e : Enc) : (encPixel p e).hdr = e.hdr := by
  rcases encPixel_cases p e with ⟨-, -, h⟩ | ⟨-, -, h⟩ | ⟨-, h⟩ <;> rw [h] <;> simp
@[simp] theorem encPixel_pb (p : Pixel) (e : Enc) : (encPixel p e).pb = e.pb := by
  rcases encPixel_cases p e with ⟨-, -, h⟩ | ⟨-, -, h⟩ | ⟨-, h⟩ <;> rw [h] <;> simp
@[simp] theorem encPixel_err (p : Pixel) (e : Enc) : (encPixel p e).err = e.err := by
  rcases encPixel_cases p e with ⟨-, -, h⟩ | ⟨-, -, h⟩ | ⟨-, h⟩ <;> rw [h] <;> simp
@[simp] theorem encPixel_k (p : Pixel) (e : Enc) : (encPixel p e).k = e.k := by
  rcases encPixel_cases p e with ⟨-, -, h⟩ | ⟨-, -, h⟩ | ⟨-, h⟩ <;> rw [h] <;> simp
@[simp] theorem encPixel_phase (p : Pixel) (e : Enc) : (encPixel p e).phase = e.phase := by
  rcases encPixel_cases p e with ⟨-, -, h⟩ | ⟨-, -, h⟩ | ⟨-, h⟩ <;> rw [h] <;> simp
@[simp] theorem encPixel_errors (p : Pixel) (e : Enc) : (encPixel p e).errors = e.errors := by
  rcases encPixel_cases p e with ⟨-, -, h⟩ | ⟨-, -, h⟩ | ⟨-, h⟩ <;> rw [h] <;> simp

/-- A flush writes one byte, where a run is pending. -/
theorem flushRun_oc (e : Enc) : (flushRun e).oc = e.oc + min e.run 1 := by
  unfold flushRun
  split
  · simp [encode]; omega
  · omega

end Sys2Proof.Machine
end

