-- ==== Sys2Proof/Laws/Step.lean ====
section
/-! SUPPORT. What a step can do, said once: which agent moves, and which unit it changes. -/

namespace Sys2Proof.Machine

/-- Every instruction runs: its meaning answers a next state, and only DEC differs in it. -/
theorem exec_next (i : Instr) (s : State) : ∃ d, exec i s = .next { s with dec := d } := by
  cases i <;> simp only [exec, execIndex, execDiff, execLuma, execRun, execRgb, execRgba, execEndMarker,
    execHeader]
  case index => exact ⟨_, rfl⟩
  case diff => exact ⟨_, rfl⟩
  case luma => split <;> exact ⟨_, rfl⟩
  case run => split <;> exact ⟨_, rfl⟩
  case rgb => split <;> exact ⟨_, rfl⟩
  case rgba => split <;> exact ⟨_, rfl⟩
  case endMarker => exact ⟨_, rfl⟩
  case header => split <;> exact ⟨_, rfl⟩

/-- What follows a fetch: an instruction runs, an error is entered, or a byte does not exist. -/
theorem runFetched_cases (f : Fetched) (s : State) :
    (∃ i, f = .instr i ∧ runFetched f s = exec i s) ∨
    (∃ e, f = .raise e ∧ runFetched f s = .next { s with dec := raiseDec e s.dec }) ∨
    (∃ r, f = .fault r ∧ runFetched f s = .fault r) := by
  cases f
  · exact .inl ⟨_, rfl, rfl⟩
  · exact .inr (.inl ⟨_, rfl, rfl⟩)
  · exact .inr (.inr ⟨_, rfl, rfl⟩)

theorem runFetched_next {f : Fetched} {s t : State} (h : runFetched f s = .next t) :
    ∃ d, t = { s with dec := d } := by
  rcases runFetched_cases f s with ⟨i, -, hf⟩ | ⟨e, -, hf⟩ | ⟨r, -, hf⟩
  · obtain ⟨d, hd⟩ := exec_next i s
    rw [hf, hd] at h
    exact ⟨d, by injection h with h; exact h.symm⟩
  · rw [hf] at h
    exact ⟨_, by injection h with h; exact h.symm⟩
  · rw [hf] at h; exact nomatch h

/-- The three things a stream step does (42_decoder.md R126). -/
theorem streamStep_cases (s : State) :
    (0 < s.dec.run ∧ streamStep s = .next { s with dec := repeatPixel s.dec }) ∨
    (s.dec.run = 0 ∧ s.dec.n < s.dec.T ∧ streamStep s = runFetched (fetchChunk s.dec) s) ∨
    (s.dec.run = 0 ∧ s.dec.T ≤ s.dec.n ∧ streamStep s = runFetched (fetchMarker s.dec) s) := by
  unfold streamStep
  by_cases h : 0 < s.dec.run
  · exact .inl ⟨h, by rw [if_pos h]⟩
  · by_cases hn : s.dec.n < s.dec.T
    · exact .inr (.inl ⟨by omega, hn, by rw [if_neg h, if_pos hn]⟩)
    · exact .inr (.inr ⟨by omega, by omega, by rw [if_neg h, if_neg hn]⟩)

/-- DEC's move changes DEC alone; outside a pass it changes nothing. -/
theorem decMove_next {s t : State} (h : decMove s = .next t) :
    ∃ d, t = { s with dec := d } ∧ (s.dec.phase ≠ .stream → d = s.dec) := by
  unfold decMove at h
  split at h
  · next hp =>
    rcases streamStep_cases s with ⟨-, hs⟩ | ⟨-, -, hs⟩ | ⟨-, -, hs⟩
    · rw [hs] at h
      exact ⟨_, by injection h with h; exact h.symm, fun hn => absurd hp hn⟩
    · rw [hs] at h
      obtain ⟨d, hd⟩ := runFetched_next h
      exact ⟨d, hd, fun hn => absurd hp hn⟩
    · rw [hs] at h
      obtain ⟨d, hd⟩ := runFetched_next h
      exact ⟨d, hd, fun hn => absurd hp hn⟩
  all_goals exact ⟨s.dec, by injection h with h; exact h.symm, fun _ => rfl⟩

/-- ENC's move: the pixel step, the finish step, or nothing. -/
theorem encMove_cases {s t : State} (h : encMove s = .next t) :
    (s.enc.phase = .pixels ∧ ∃ p, pixIn s.enc s.enc.k = some p ∧
      t = { s with enc := encPixelStep p s.enc }) ∨
    (s.enc.phase = .finish ∧ t = { s with enc := encFinish s.enc }) ∨
    (s.enc.busy = false ∧ t = s) := by
  unfold encMove at h
  split at h
  · next hp =>
    split at h
    · next p hpix => exact .inl ⟨hp, p, hpix, by injection h with h; exact h.symm⟩
    · exact nomatch h
  · next hp => exact .inr (.inl ⟨hp, by injection h with h; exact h.symm⟩)
  all_goals
    next hp => exact .inr (.inr ⟨by simp [Enc.busy, hp], by injection h with h; exact h.symm⟩)

/-- What a command does when it is accepted: a start of one unit, or a reply. -/
theorem hostMove_cases {c : Command} {s t : State} (h : hostMove c s = .next t) :
    (∃ w v ch cs pb, c = .encStart w v ch cs pb ∧ s.enc.busy = false ∧
      t = { s with enc := encStart w v ch cs { s.enc with pb := Buffer.ofBytes pb } }) ∨
    (∃ ib d, c = .decStart ib ∧ s.dec.busy = false ∧ t = { s with dec := d } ∧
      runFetched (fetchHeader { s.dec with ib := Buffer.ofBytes ib })
        { s with dec := { s.dec with ib := Buffer.ofBytes ib } } = .next t) ∨
    (∃ r, t = { s with reply := some r }) := by
  have hans : ∀ r, answer r s = .next t → ∃ r, t = { s with reply := some r } :=
    fun r h => ⟨r, by injection h with h; exact h.symm⟩
  cases c with
  | encStart w v ch cs pb =>
    simp only [hostMove, hostEncStart] at h
    split at h
    · exact nomatch h
    · next hb => exact .inl ⟨w, v, ch, cs, pb, rfl, by simpa using hb, by injection h with h; exact h.symm⟩
  | decStart ib =>
    simp only [hostMove, hostDecStart] at h
    split at h
    · exact nomatch h
    · next hb =>
      obtain ⟨d, hd⟩ := runFetched_next h
      exact .inr (.inl ⟨ib, d, rfl, by simpa using hb, hd, h⟩)
  | encodeHeader w v ch cs =>
    simp only [hostMove, hostEncodeHeader] at h
    split at h
    · exact .inr (.inr (hans _ h))
    · exact nomatch h
  | decodeHeader bytes =>
    simp only [hostMove, hostDecodeHeader] at h
    split at h <;> exact .inr (.inr (hans _ h))
  | readPhase u => cases u <;> exact .inr (.inr (hans _ h))
  | readErr u => cases u <;> exact .inr (.inr (hans _ h))
  | readOB =>
    simp only [hostMove, hostReadOB] at h
    split at h
    · split at h
      · exact .inr (.inr (hans _ h))
      · exact nomatch h
    · exact .inr (.inr (hans _ h))
  | readAccessor f =>
    simp only [hostMove, hostReadAccessor] at h
    split at h <;> exact .inr (.inr (hans _ h))
  | readPO =>
    simp only [hostMove, hostReadPO] at h
    split at h
    · split at h
      · exact .inr (.inr (hans _ h))
      · exact nomatch h
    · exact .inr (.inr (hans _ h))

/-- Which agent a step is of. -/
theorem step_cases (s : State) :
    (∃ c, s.hostNext c ∧ step s = hostMove c s.popped) ∨
    (s.encNext ∧ step s = encMove s.popped) ∨
    (s.decNext ∧ step s = decMove s.popped) := by
  unfold step State.hostNext State.encNext State.decNext State.popped
  cases ha : s.agenda with
  | nil =>
    have hs : ({ s with agenda := [] } : State) = s := by rw [← ha]
    simp only [freeMove, List.tail_nil, hs]
    cases hb : s.dec.busy <;> simp
  | cons m rest =>
    cases m <;> simp [runMove]

/-! ### The step of each agent -/

theorem popped_of_nil {s : State} (h : s.agenda = []) : s.popped = s := by
  simp only [State.popped, h, List.tail_nil]
  rw [← h]

theorem step_of_decNext {s : State} (h : s.decNext) : step s = decMove s.popped := by
  rcases h with h | ⟨h, hb⟩
  · cases ha : s.agenda with
    | nil => simp [ha] at h
    | cons m rest =>
      simp only [ha, List.head?_cons, Option.some.injEq] at h
      subst h
      simp [step, ha, runMove, State.popped]
  · rw [popped_of_nil h]
    simp [step, h, freeMove, hb]

theorem step_of_encNext {s : State} (h : s.encNext) : step s = encMove s.popped := by
  rcases h with h | ⟨h, hb⟩
  · cases ha : s.agenda with
    | nil => simp [ha] at h
    | cons m rest =>
      simp only [ha, List.head?_cons, Option.some.injEq] at h
      subst h
      simp [step, ha, runMove, State.popped]
  · rw [popped_of_nil h]
    simp [step, h, freeMove, hb]

theorem step_of_hostNext {s : State} {c : Command} (h : s.hostNext c) : step s = hostMove c s.popped := by
  cases ha : s.agenda with
  | nil => simp [State.hostNext, ha] at h
  | cons m rest =>
    simp only [State.hostNext, ha, List.head?_cons, Option.some.injEq] at h
    subst h
    simp [step, ha, runMove, State.popped]

theorem step_of_stream {s : State} (h : s.decNext) (hp : s.dec.phase = .stream) :
    step s = streamStep s.popped := by
  rw [step_of_decNext h]
  simp [decMove, hp]

/-! ### Chunks and the fetch -/

/-- The four things a chunk does: an error, a new pixel, a slot's pixel, or a pending run. -/
theorem exec_chunk_cases {i : Instr} (s : State) (hp : i.position = .chunk) :
    (∃ e, exec i s = .next { s with dec := raiseDec e s.dec }) ∨
    (∃ p, exec i s = .next { s with dec := newPixel p (advance i.size s.dec) } ∧
      s.dec.pos + i.size ≤ max s.dec.N (s.dec.pos + 1)) ∨
    (∃ p, i.size = 1 ∧ exec i s = .next { s with dec := pixOut p { advance 1 s.dec with prev := p } }) ∨
    (∃ n, i = .run n ∧ s.dec.n + n ≤ s.dec.T ∧
      exec i s = .next { s with dec := { advance 1 s.dec with run := n } }) := by
  cases i with
  | index _ => exact .inr (.inr (.inl ⟨_, rfl, rfl⟩))
  | diff _ _ _ => exact .inr (.inl ⟨_, rfl, by simp [Instr.size]⟩)
  | luma _ _ _ =>
    simp only [exec, execLuma, Instr.size]
    split
    · exact .inl ⟨_, rfl⟩
    · exact .inr (.inl ⟨_, rfl, by omega⟩)
  | run n =>
    simp only [exec, execRun]
    split
    · exact .inl ⟨_, rfl⟩
    · exact .inr (.inr (.inr ⟨_, rfl, by omega, rfl⟩))
  | rgb _ _ _ =>
    simp only [exec, execRgb, Instr.size]
    split
    · exact .inl ⟨_, rfl⟩
    · exact .inr (.inl ⟨_, rfl, by omega⟩)
  | rgba _ _ _ _ =>
    simp only [exec, execRgba, Instr.size]
    split
    · exact .inl ⟨_, rfl⟩
    · exact .inr (.inl ⟨_, rfl, by omega⟩)
  | endMarker => exact nomatch hp
  | header _ _ _ _ => exact nomatch hp

/-- The header that a start command fetches is in the first 14 bytes of its operand. -/
theorem fetchHeader_ofBytes (d : Dec) (bs : List Byte) :
    fetchHeader { d with ib := Buffer.ofBytes bs } = fetched .header (bs.take 14) := by
  unfold fetchHeader
  simp only [Buffer.ofBytes_len, Config.headerBytes]
  rw [Buffer.read_ofBytes_prefix (by omega)]
  simp only
  congr 1
  rcases Nat.le_total 14 bs.length with h | h
  · rw [Nat.min_eq_left h]
  · rw [Nat.min_eq_right h, List.take_length, List.take_of_length_le h]

end Sys2Proof.Machine
end

