-- ==== Sys2Proof/Laws/PerInstr.lean ====
section
/-! SUPPORT. Statements about every instruction as syntax, one lemma per constructor (LAWS.json). -/

namespace Sys2Proof.Laws

/-- An instruction's encoding has as many bytes as 30_encoding.md R77 says. -/
def Length.Statement (i : Instr) : Prop := (encode i).length = i.size

theorem Length.index (idx : Fin 64) : Length.Statement (.index idx) := rfl
theorem Length.diff (dr dg db : Int) : Length.Statement (.diff dr dg db) := rfl
theorem Length.luma (dg drg dbg : Int) : Length.Statement (.luma dg drg dbg) := rfl
theorem Length.run (n : Nat) : Length.Statement (.run n) := rfl
theorem Length.rgb (r g b : Byte) : Length.Statement (.rgb r g b) := rfl
theorem Length.rgba (r g b a : Byte) : Length.Statement (.rgba r g b a) := rfl
theorem Length.endMarker : Length.Statement .endMarker := rfl
theorem Length.header (w h : U32) (c cs : Byte) : Length.Statement (.header w h c cs) := rfl

end Sys2Proof.Laws
end

