-- ==== Sys2Proof/Tests/Slice0.lean ====
section
/-! SUPPORT. Tests on fixed values, each expected value from spec/95_test_vectors.md or written out from the
formats of spec/30_encoding.md; and, for every statement with hypotheses, a witness that meets them. -/

namespace Sys2Proof.Tests

open Sys2Proof Sys2Proof.Machine

/-! ## Small states -/

/-- A DEC in a pass, at the first byte after the header. -/
def dec (W : U32) (C : Byte) (bytes : List Byte) : Dec :=
  { Dec.reset with
    phase := .stream
    hdr := ⟨W, 1, C, 0⟩
    ib := Buffer.ofBytes (encodeHeader W 1 C 0 ++ bytes)
    N := 14 + bytes.length
    pos := 14 }

/-- The machine with that DEC to move. -/
def decState (d : Dec) : State := { State.reset with dec := d, agenda := [.dec] }

/-- An ENC after its start step. -/
def enc (w c : Nat) (pb : List Byte) : Enc := encStart w 1 c 0 { Enc.reset with pb := Buffer.ofBytes pb }

/-- The machine with that ENC to move. -/
def encState (e : Enc) : State := { State.reset with enc := e, agenda := [.enc] }

/-- The machine after reset with one command to run. -/
def hostState (c : Command) : State := { State.reset with agenda := [.host c] }

/-- What an outcome's DEC shows. -/
def decAfter (o : Host.Outcome State Fault Refusal) : Option Dec :=
  match o with
  | .next s    => some s.dec
  | .fault _   => none
  | .refused _ => none

/-- What an outcome's ENC shows. -/
def encAfter (o : Host.Outcome State Fault Refusal) : Option Enc :=
  match o with
  | .next s    => some s.enc
  | .fault _   => none
  | .refused _ => none

/-- What an outcome's reply shows. -/
def replyAfter (o : Host.Outcome State Fault Refusal) : Option Reply :=
  match o with
  | .next s    => s.reply
  | .fault _   => none
  | .refused _ => none

/-! ## WellFormed refuses ill-formed terms -/

theorem test_wellFormed_refuses_diff_dr : wellFormed (.diff (-3) 0 0) = false ∧ wellFormed (.diff 2 0 0) = false := by decide
theorem test_wellFormed_refuses_diff_dg : wellFormed (.diff 0 (-3) 0) = false ∧ wellFormed (.diff 0 2 0) = false := by decide
theorem test_wellFormed_refuses_diff_db : wellFormed (.diff 0 0 (-3)) = false ∧ wellFormed (.diff 0 0 2) = false := by decide
theorem test_wellFormed_refuses_luma_dg : wellFormed (.luma (-33) 0 0) = false ∧ wellFormed (.luma 32 0 0) = false := by decide
theorem test_wellFormed_refuses_luma_drg : wellFormed (.luma 0 (-9) 0) = false ∧ wellFormed (.luma 0 8 0) = false := by decide
theorem test_wellFormed_refuses_luma_dbg : wellFormed (.luma 0 0 (-9)) = false ∧ wellFormed (.luma 0 0 8) = false := by decide
theorem test_wellFormed_refuses_run : wellFormed (.run 0) = false ∧ wellFormed (.run 63) = false := by decide

/-! ## Words written out from the formats (30_encoding.md R78 to R85) -/

/-- R79: 00 iiiiii, with i = 53. -/
theorem test_decode_index : decodeTableWord 8 0b00110101 = some (.index 53) := by decide
/-- R80: 01 rr gg bb, with fields 0, 1, 3: deltas -2, -1, 1. -/
theorem test_decode_diff : decodeTableWord 8 0b01000111 = some (.diff (-2) (-1) 1) := by decide
/-- R81: 10 gggggg, then rrrr bbbb, with fields 38, 6, 7: deltas 6, -2, -1. -/
theorem test_decode_luma : decodeTableWord 16 0b0110011110100110 = some (.luma 6 (-2) (-1)) := by decide
/-- R82: 11 nnnnnn, with n - 1 = 12. -/
theorem test_decode_run : decodeTableWord 8 0b11001100 = some (.run 13) := by decide
/-- R83: 0xFE, r, g, b. -/
theorem test_decode_rgb : decodeTableWord 32 0xE8E0D8FE = some (.rgb 0xD8 0xE0 0xE8) := by decide
/-- R84: 0xFF, r, g, b, a. -/
theorem test_decode_rgba : decodeTableWord 40 0x801E1914FF = some (.rgba 20 25 30 128) := by decide
/-- R85: seven zeros, then 1; and as the table prints its fixed bits (log entry 11). -/
theorem test_decode_end : decodeTableWord 64 0x0100000000000000 = some .endMarker ∧
    decodeTableWord 64 1 = some .endMarker := by decide
/-- R78, with the integers' bytes high first (V-HDR-1); and with the magic as the table prints it. -/
theorem test_decode_header : decodeTableWord 112 0x0003010000000100000066696F71 = some (.header 1 1 3 0) ∧
    decodeTableWord 112 0x00030100000001000000716F6966 = some (.header 1 1 3 0) := by decide

/-- HEADER's 32 fixed bits alone, the fields zero (log entry 11). -/
theorem test_decode_header_fixed_bits : decodeTableWord 32 0x716F6966 = some (.header 0 0 0 0) := by decide
/-- Fixed bits alone, operand bytes zero. -/
theorem test_decode_fixed_bits : decodeTableWord 8 0x80 = some (.luma (-32) (-8) (-8)) ∧
    decodeTableWord 8 0xFE = some (.rgb 0 0 0) ∧ decodeTableWord 8 0xFF = some (.rgba 0 0 0 0) := by decide

/-- R83, R84: a chunk cut off in its operands is no instruction; R85: nor is another 8-byte value. -/
theorem test_decode_refuses :
    decode .chunk [0xFE, 1, 2] = .error (.cutOff .rgb) ∧ decode .chunk [0xFF, 1, 2, 3] = .error (.cutOff .rgba) ∧
    decode .chunk [0xB9] = .error (.cutOff .luma) ∧ decode .chunk [] = .error .noBytes ∧
    decode .marker [0, 0, 0, 0, 0, 0, 0, 2] = .error .badMarker ∧
    decode .marker [0, 0, 0, 0, 0, 0, 0] = .error .shortMarker ∧
    decode .header [0x71, 0x6F, 0x69, 0x67, 0, 0, 0, 1, 0, 0, 0, 1, 3, 0] = .error .badMagic :=
  ⟨rfl, rfl, rfl, rfl, rfl, rfl, rfl⟩

/-- V-HDR-2. -/
theorem test_encode_header : encode (.header 800 600 4 1)
    = [0x71, 0x6F, 0x69, 0x66, 0, 0, 3, 0x20, 0, 0, 2, 0x58, 4, 1] := by decide
/-- V-ENC-S2 and V-ENC-S8. -/
theorem test_encode_deltas : encode (.diff (-2) 0 0) = [0x4A] ∧ encode (.luma 25 (-5) 5) = [0xB9, 0x3D] := by decide

/-! ## Arithmetic (95_test_vectors.md §2.2) -/

theorem test_hash : Machine.hash ⟨0, 0, 0, 255⟩ = 53 ∧ Machine.hash ⟨255, 255, 255, 255⟩ = 38 ∧
    Machine.hash ⟨1, 2, 3, 4⟩ = 14 ∧ Machine.hash ⟨10, 20, 30, 255⟩ = 9 := by decide
theorem test_s8 : s8 127 = 127 ∧ s8 128 = -128 ∧ s8 255 = -1 ∧ s8 (-129) = 127 ∧ s8 (-255) = 1 ∧ s8 256 = 0 := by
  decide

/-! ## One step of DEC on each instruction -/

/-- V-DEC-C12: an initial slot is output as it stands. -/
theorem test_step_index : (decAfter (step (decState (dec 1 4 [0x05])))).map
    (fun d => (d.prev, d.pos, d.n, d.po)) = some (⟨0, 0, 0, 0⟩, 15, 1, [(0, 0), (1, 0), (2, 0), (3, 0)]) := by decide
/-- V-DEC-C2: a wrap below 0, slot 49. -/
theorem test_step_diff : (decAfter (step (decState (dec 1 3 [0x79])))).map
    (fun d => (d.prev, Cache.slot d.cache 49, d.po))
    = some (⟨1, 0, 255, 255⟩, ⟨1, 0, 255, 255⟩, [(0, 1), (1, 0), (2, 255)]) := by decide
/-- V-DEC-C8: red and blue relative to green, slot 46. -/
theorem test_step_luma : (decAfter (step (decState (dec 1 3 [0x80, 0x0F])))).map
    (fun d => (d.prev, Cache.slot d.cache 46, d.pos))
    = some (⟨216, 224, 231, 255⟩, ⟨216, 224, 231, 255⟩, 16) := by decide
/-- V-DEC-E10: the second byte is missing. -/
theorem test_step_luma_cut : (decAfter (step (decState (dec 1 3 [0xB9])))).map
    (fun d => (d.phase, d.err.code)) = some (.error, 2) := by decide
/-- V-DEC-C1: alpha is inherited, slot 9. -/
theorem test_step_rgb : (decAfter (step (decState (dec 1 3 [0xFE, 10, 20, 30])))).map
    (fun d => (d.prev, Cache.slot d.cache 9, d.po))
    = some (⟨10, 20, 30, 255⟩, ⟨10, 20, 30, 255⟩, [(0, 10), (1, 20), (2, 30)]) := by decide
/-- V-DEC-C11, first chunk: RGBA in a 3-channel stream drops alpha from PO alone. -/
theorem test_step_rgba : (decAfter (step (decState (dec 2 3 [0xFF, 1, 2, 3, 0x80])))).map
    (fun d => (d.prev, Cache.slot d.cache 34, d.po))
    = some (⟨1, 2, 3, 128⟩, ⟨1, 2, 3, 128⟩, [(0, 1), (1, 2), (2, 3)]) := by decide
/-- V-DEC-C14: 62 repeats pending, nothing written yet; R133: the cache stays. -/
theorem test_step_run : (decAfter (step (decState (dec 62 3 [0xFD])))).map
    (fun d => (d.run, d.n, d.pos, Cache.slot d.cache 53)) = some (62, 0, 15, ⟨0, 0, 0, 0⟩) := by decide
/-- V-DEC-E11: a RUN of 2 with one pixel left. -/
theorem test_step_run_overshoot : (decAfter (step (decState (dec 1 3 [0xC1, 0, 0, 0, 0, 0, 0, 0, 1])))).map
    (fun d => (d.phase, d.err.code)) = some (.error, 4) := by decide
/-- V-DEC-E19: an image of no pixels is its marker. -/
theorem test_step_end : (decAfter (step (decState (dec 0 3 [0, 0, 0, 0, 0, 0, 0, 1])))).map
    (fun d => (d.phase, d.pos, d.po)) = some (.done, 22, []) := by decide
/-- V-DEC-E16: one byte after the marker, under both parameters. -/
theorem test_step_end_trailing :
    (decAfter (exec .endMarker (decState (dec 0 3 [0, 0, 0, 0, 0, 0, 0, 1, 0])))).map (fun d => (d.phase, d.err.code))
      = some (.error, 2) ∧
    (decAfter (exec .endMarker
      { decState (dec 0 3 [0, 0, 0, 0, 0, 0, 0, 1, 0]) with params := ⟨.ignore⟩ })).map (fun d => d.phase)
      = some .done := by decide
/-- 42_decoder.md R122 on V-HDR-2. -/
theorem test_step_header : (decAfter (step (hostState (.decStart
    [0x71, 0x6F, 0x69, 0x66, 0, 0, 3, 0x20, 0, 0, 2, 0x58, 4, 1])))).map
    (fun d => (d.phase, d.hdr, d.N, d.pos)) = some (.stream, ⟨800, 600, 4, 1⟩, 14, 14) := by decide
/-- V-DEC-E3: channels 5. -/
theorem test_step_header_channels : (decAfter (step (hostState (.decStart
    [0x71, 0x6F, 0x69, 0x66, 0, 0, 0, 1, 0, 0, 0, 1, 5, 0, 0xFE, 1, 2, 3])))).map
    (fun d => (d.phase, d.err.code)) = some (.error, 2) := by decide
/-- V-DEC-E7: the header alone, one pixel owed. -/
theorem test_step_truncated : (decAfter (step (decState (dec 1 3 [])))).map
    (fun d => (d.phase, d.err.code)) = some (.error, 3) := by decide

/-! ## One step of ENC -/

/-- V-ENC-S1, V-ENC-S8, V-ENC-S14, V-ENC-S20, V-ENC-S21 from the start of a pass. -/
theorem test_enc_chunks :
    Memory.readBytes (encPixel ⟨1, 0, 255, 255⟩ (enc 1 3 [1, 0, 255])).ob 14 1 = some [0x79] ∧
    Memory.readBytes (encPixel ⟨20, 25, 30, 255⟩ (enc 1 3 [20, 25, 30])).ob 14 2 = some [0xB9, 0x3D] ∧
    Memory.readBytes (encPixel ⟨0, 31, 0, 255⟩ (enc 1 3 [0, 31, 0])).ob 14 4 = some [0xFE, 0, 0x1F, 0] ∧
    Memory.readBytes (encPixel ⟨0, 0, 0, 128⟩ (enc 1 4 [0, 0, 0, 128])).ob 14 5 = some [0xFF, 0, 0, 0, 0x80] ∧
    Memory.readBytes (encPixel ⟨0, 0, 0, 0⟩ (enc 1 4 [0, 0, 0, 0])).ob 14 1 = some [0x00] := by decide
/-- V-ENC-R3: the 63rd equal pixel emits RUN 62 and begins a new run. -/
theorem test_enc_saturation :
    ((encPixel Pixel.seed { enc 1 3 [0, 0, 0] with run := 62 }).run,
      Memory.readBytes (encPixel Pixel.seed { enc 1 3 [0, 0, 0] with run := 62 }).ob 14 1) = (1, some [0xFD]) := by decide
/-- V-ENC-R1: the finish step flushes RUN 1 and writes the marker. -/
theorem test_enc_finish :
    Memory.readBytes (encFinish { enc 1 3 [0, 0, 0] with run := 1 }).ob 14 9 = some [0xC0, 0, 0, 0, 0, 0, 0, 0, 1] := by decide
/-- V-ENC-V4 and V-ENC-V8: the start step's two errors. -/
theorem test_enc_start_rejects :
    (encStart 1 1 2 0 { Enc.reset with pb := Buffer.ofBytes [1, 2] }).err.code = 1 ∧
    (encStart 2 1 3 0 { Enc.reset with pb := Buffer.ofBytes [1, 2, 3, 4, 5, 6, 7] }).err.code = 1 := by decide

/-! ## Placing an instruction (log entries 11 and 12) -/

theorem test_withFetchWord_chunk : (decAfter (step (State.reset.withFetchWord 32 0x1E140AFE))).map
    (fun d => d.prev) = some ⟨10, 20, 30, 255⟩ := by decide
theorem test_withFetchWord_end : (decAfter (step (State.reset.withFetchWord 64 0x0100000000000000))).map
    (fun d => d.phase) = some .done := by decide
theorem test_withFetchWord_header :
    (decAfter (step (State.reset.withFetchWord 112 0x0003010000000100000066696F71))).map
      (fun d => (d.phase, d.hdr)) = some (.stream, ⟨1, 1, 3, 0⟩) := by decide

/-! ## Witnesses: states and operands that meet the hypotheses of the statements -/

/-- DEC with a repeat pending. -/
def repeating : State := decState { dec 2 3 [0xC1] with pos := 15, run := 2 }

/-- DEC after its one pixel, with the marker left. -/
def atMarker : State :=
  decState { dec 1 3 [0xC0, 0, 0, 0, 0, 0, 0, 0, 1] with pos := 15, n := 1, po := [(0, 0), (1, 0), (2, 0)] }

/-- DEC after its one pixel, with a wrong marker left. -/
def atBadMarker : State :=
  decState { dec 1 3 [0xC0, 0, 0, 0, 0, 0, 0, 0, 2] with pos := 15, n := 1, po := [(0, 0), (1, 0), (2, 0)] }

/-- ENC and DEC at DONE, each after an image of one seed pixel. -/
def doneState (c : Command) : State :=
  { hostState c with
    enc := encFinish (encPixelStep Pixel.seed (enc 1 3 [0, 0, 0]))
    dec := { atMarker.dec with phase := .done, pos := 23 } }

/-- Both units in error. -/
def errorState (agenda : List Move) : State :=
  { State.reset with
    enc := { Enc.reset with phase := .error, err := .validation }
    dec := { Dec.reset with phase := .error, err := .format }
    agenda := agenda }

theorem witness_DecodeOfEncodeIsTheInstruction :
    wellFormed (.index 63) = true ∧ wellFormed (.diff (-2) 1 (-2)) = true ∧ wellFormed (.luma (-32) 7 (-8)) = true ∧
    wellFormed (.luma 31 (-8) 7) = true ∧ wellFormed (.run 1) = true ∧ wellFormed (.run 62) = true ∧
    wellFormed (.rgb 0 255 0) = true ∧ wellFormed (.rgba 0 255 0 255) = true ∧ wellFormed .endMarker = true ∧
    wellFormed (.header 0 4294967295 255 255) = true := by decide
theorem witness_EncodeOfDecodeIsTheBytes :
    decode .chunk [0xFD, 7] = .ok (.run 62, [7]) ∧
    decode .marker [0, 0, 0, 0, 0, 0, 0, 1] = .ok (.endMarker, []) ∧
    decode .header [0x71, 0x6F, 0x69, 0x66, 0, 0, 0, 1, 0, 0, 0, 1, 3, 0] = .ok (.header 1 1 3 0, []) :=
  ⟨rfl, rfl, rfl⟩
theorem witness_FirstByteSelectsTheChunk :
    (chunkKind 254, chunkKind 255, chunkKind 0, chunkKind 63, chunkKind 64) = (.rgb, .rgba, .index, .index, .diff) ∧
    (chunkKind 127, chunkKind 128, chunkKind 191, chunkKind 192, chunkKind 253) = (.diff, .luma, .luma, .run, .run) := by
  decide
theorem witness_NoChunkIsIllegal : (chunkKind 0xFF).length ≤ ([0xFF, 1, 2, 3, 4] : List Byte).length ∧
    (chunkKind 0x00).length ≤ ([0x00] : List Byte).length := by decide
theorem witness_HeaderRoundTrip : ((3 : Byte) = 3 ∨ (3 : Byte) = 4) ∧ ((1 : Byte) = 0 ∨ (1 : Byte) = 1) ∧
    ¬(((2 : Byte) = 3 ∨ (2 : Byte) = 4) ∧ ((0 : Byte) = 0 ∨ (0 : Byte) = 1)) ∧
    ¬(((4 : Byte) = 3 ∨ (4 : Byte) = 4) ∧ ((2 : Byte) = 0 ∨ (2 : Byte) = 1)) := by decide
theorem witness_HashNeedsSixBits : (hash ⟨255, 255, 255, 255⟩).val = 6630 % 2 ^ 6 % 64 := by decide
theorem witness_LumaAddsItsDeltas : (dec 1 3 [0xB9, 0x3D]).pos + 2 = (dec 1 3 [0xB9, 0x3D]).N := by decide
theorem witness_RgbInheritsAlpha : (dec 1 3 [0xFE, 1, 2, 3]).pos + 4 = (dec 1 3 [0xFE, 1, 2, 3]).N := by decide
theorem witness_RgbaGivesAllChannels : (dec 1 4 [0xFF, 1, 2, 3, 4]).pos + 5 = (dec 1 4 [0xFF, 1, 2, 3, 4]).N := by decide
theorem witness_RunLeavesRepeatsPending : (dec 62 3 [0xFD]).n + 62 = (dec 62 3 [0xFD]).T := by decide
theorem witness_EndMarkerEndsThePass : atMarker.dec.pos + 8 = atMarker.dec.N ∧
    (dec 0 3 [0, 0, 0, 0, 0, 0, 0, 1, 0]).pos + 8 < (dec 0 3 [0, 0, 0, 0, 0, 0, 0, 1, 0]).N := by decide
theorem witness_HeaderStartsThePass : (dec 1 3 []).ib.len = 14 := by decide
theorem witness_CutOffChunkIsFormatError :
    (dec 1 3 [0xB9]).N + 1 = (dec 1 3 [0xB9]).pos + (Instr.luma 0 0 0).size ∧
    (dec 1 3 [0xFE, 1, 2]).N + 1 = (dec 1 3 [0xFE, 1, 2]).pos + (Instr.rgb 1 2 0).size ∧
    (dec 1 3 [0xFF, 1, 2, 3]).N + 1 = (dec 1 3 [0xFF, 1, 2, 3]).pos + (Instr.rgba 1 2 3 0).size := by decide
theorem witness_RunOvershootIsPixelCountMismatch : (dec 1 3 [0xC1]).T + 1 = (dec 1 3 [0xC1]).n + 2 := by decide
theorem witness_BadEndIsFormatError :
    (dec 0 3 [0, 0, 0, 0, 0, 0, 0]).N + 1 = (dec 0 3 [0, 0, 0, 0, 0, 0, 0]).pos + 8 ∧
    (dec 0 3 [0, 0, 0, 0, 0, 0, 0, 1, 0]).pos + 8 + 1 = (dec 0 3 [0, 0, 0, 0, 0, 0, 0, 1, 0]).N ∧
    State.reset.params.trailing = .reject := by decide
theorem witness_IllegalHeaderIsFormatError : (Buffer.ofBytes [0x71, 0x6F]).len < 14 ∧
    ¬((5 : Byte) = 3 ∨ (5 : Byte) = 4) ∧ ¬((2 : Byte) = 0 ∨ (2 : Byte) = 1) := by decide
theorem witness_StepRunsTheChunk :
    let s := decState (dec 1 4 [0xFF, 1, 2, 3, 4])
    s.decNext ∧ s.dec.phase = .stream ∧ s.dec.run = 0 ∧ s.dec.n < s.dec.T ∧
    wellFormed (.rgba 1 2 3 4) = true ∧ (Instr.rgba 1 2 3 4).position = .chunk ∧
    s.dec.pos + (Instr.rgba 1 2 3 4).size = s.dec.N ∧
    s.dec.ib.read s.dec.pos (Instr.rgba 1 2 3 4).size = some (encode (.rgba 1 2 3 4)) := by decide
theorem witness_StepRunsTheEndMarker :
    atMarker.decNext ∧ atMarker.dec.phase = .stream ∧ atMarker.dec.run = 0 ∧ atMarker.dec.T = atMarker.dec.n ∧
    atMarker.dec.pos + 8 = atMarker.dec.N ∧
    atMarker.dec.ib.read atMarker.dec.pos 8 = some [0, 0, 0, 0, 0, 0, 0, 1] := by decide
theorem witness_StepRunsTheHeader :
    let s := hostState (.decStart (encode (.header 1 1 3 0) ++ [0xC0]))
    s.dec.busy = false ∧ s.hostNext (.decStart (encode (.header 1 1 3 0) ++ [0xC0])) := by decide
theorem witness_RepeatWritesPrev :
    repeating.Inv ∧ repeating.decNext ∧ repeating.dec.phase = .stream ∧ 0 < repeating.dec.run :=
  ⟨⟨by decide, by decide, by decide⟩, by decide⟩
theorem witness_ExhaustedStreamIsTruncated :
    let s := decState (dec 1 3 [])
    s.decNext ∧ s.dec.phase = .stream ∧ s.dec.run = 0 ∧ s.dec.n < s.dec.T ∧ s.dec.pos = s.dec.N := by decide
theorem witness_StepOnCutOffChunkIsFormatError :
    let s := decState (dec 1 3 [0xFE, 1, 2])
    s.Inv ∧ s.decNext ∧ s.dec.phase = .stream ∧ s.dec.run = 0 ∧ s.dec.n < s.dec.T ∧ s.dec.pos < s.dec.N ∧
    s.dec.ib.read s.dec.pos 1 = some [0xFE] ∧ s.dec.N < s.dec.pos + (chunkKind 0xFE).length :=
  ⟨⟨by decide, by decide, by decide⟩, by decide⟩
theorem witness_StepOnBadMarkerIsFormatError :
    let s := decState (dec 0 3 [0, 0, 0, 0, 0, 0, 0])
    (s.Inv ∧ s.decNext ∧ s.dec.phase = .stream ∧ s.dec.run = 0 ∧ s.dec.n = s.dec.T ∧ s.dec.N < s.dec.pos + 8) ∧
    (atBadMarker.Inv ∧ atBadMarker.decNext ∧ atBadMarker.dec.n = atBadMarker.dec.T ∧
      atBadMarker.dec.ib.read atBadMarker.dec.pos 8 ≠ some [0, 0, 0, 0, 0, 0, 0, 1]) :=
  ⟨⟨⟨by decide, by decide, by decide⟩, by decide⟩, ⟨⟨by decide, by decide, by decide⟩, by decide⟩⟩
theorem witness_DecStartFollowsDecodeHeader :
    let s := hostState (.decStart [0x71])
    s.dec.busy = false ∧ s.hostNext (.decStart [0x71]) ∧ decodeHeader [0x71] = none ∧
    decodeHeader (encodeHeader 0 1 3 0) = some ⟨0, 1, 3, 0⟩ := by decide
theorem witness_DecStepRaisesTheMeasure : repeating.Inv ∧ repeating.decNext ∧ repeating.dec.phase = .stream ∧
    ∃ t, step repeating = .next t ∧ t.dec.phase = .stream :=
  ⟨⟨by decide, by decide, by decide⟩, by decide, rfl, _, rfl, rfl⟩
theorem witness_EncoderHeaderDomain : validEncHeader 4294967294 1 4 1 = true ∧ validEncHeader 4294967295 1 4 1 = false ∧
    validEncHeader 0 1 3 0 = false ∧ validEncHeader 1 1 5 0 = false ∧ validEncHeader 1 1 3 2 = false := by decide
theorem witness_EncStartEmitsTheHeader :
    let s := hostState (.encStart 1 1 3 0 [1, 2, 3])
    s.enc.busy = false ∧ s.hostNext (.encStart 1 1 3 0 [1, 2, 3]) ∧ validEncHeader 1 1 3 0 = true ∧
    ([1, 2, 3] : List Byte).length = 1 * 1 * 3 := by decide
theorem witness_EncStartRejects :
    let s := hostState (.encStart 1 1 4 0 [1, 2, 3])
    s.enc.busy = false ∧ s.hostNext (.encStart 1 1 4 0 [1, 2, 3]) ∧ ([1, 2, 3] : List Byte).length ≠ 1 * 1 * 4 ∧
    validEncHeader 0 1 3 0 = false := by decide
theorem witness_PixInReadsThePixel :
    ((enc 2 3 [1, 2, 3, 4, 5, 6]).hdr.C = 3 ∧
      (enc 2 3 [1, 2, 3, 4, 5, 6]).pb = Buffer.ofBytes ([1, 2, 3] ++ [4, 5, 6] ++ []) ∧
      ([1, 2, 3] : List Byte).length = 1 * 3) ∧
    ((enc 1 4 [1, 2, 3, 4]).hdr.C = 4 ∧ (enc 1 4 [1, 2, 3, 4]).pb = Buffer.ofBytes ([] ++ [1, 2, 3, 4] ++ []) ∧
      ([] : List Byte).length = 0 * 4) := by decide
theorem witness_EncStepProcessesOnePixel :
    let s := encState (enc 1 3 [1, 2, 3])
    s.encNext ∧ s.enc.phase = .pixels ∧ pixIn s.enc s.enc.k = some ⟨1, 2, 3, 255⟩ := by decide
theorem witness_RunContinuation : Pixel.seed = (enc 1 3 [0, 0, 0]).prev ∧
    ({ enc 1 3 [0, 0, 0] with run := 61 } : Enc).run < 62 := by decide
theorem witness_RunSaturation : Pixel.seed = ({ enc 1 3 [0, 0, 0] with run := 62 } : Enc).prev ∧
    ({ enc 1 3 [0, 0, 0] with run := 62 } : Enc).run = 62 := by decide
/-- One pixel for each clause: INDEX, RGBA, DIFF, LUMA and RGB, at the bounds of V-ENC-S4, S9, S12. -/
theorem witness_DifferingPixelChoosesItsChunk :
    let e := enc 1 4 [0, 0, 0, 0]
    e.prev = Pixel.seed ∧ e.run ≤ 62 ∧
    Cache.slot e.cache (hash ⟨0, 0, 0, 0⟩) = ⟨0, 0, 0, 0⟩ ∧
    Cache.slot e.cache (hash ⟨0, 0, 0, 128⟩) ≠ ⟨0, 0, 0, 128⟩ ∧
    fitsDiff (delta 254 0) (delta 254 0) (delta 254 0) = true ∧
    (fitsDiff (delta 216 0) (delta 224 0) (delta 216 0) = false ∧
      fitsLuma (delta 216 0) (delta 224 0) (delta 216 0) = true) ∧
    (fitsDiff (delta 216 0) (delta 224 0) (delta 232 0) = false ∧
      fitsLuma (delta 216 0) (delta 224 0) (delta 232 0) = false) := by decide
theorem witness_FinishWritesTheMarker :
    let s := encState { enc 1 3 [0, 0, 0] with phase := .finish, run := 62 }
    s.encNext ∧ s.enc.phase = .finish ∧ s.enc.run ≤ 62 := by decide
theorem witness_ThreeChannelsNeverRgba :
    let s := encState (enc 1 3 [9, 9, 9])
    s.Inv ∧ s.enc.phase = .pixels ∧ s.enc.hdr.C = 3 ∧ pixIn s.enc s.enc.k = some ⟨9, 9, 9, 255⟩ :=
  ⟨⟨by decide, by decide, by decide⟩, by decide⟩
theorem witness_PrevIsInItsSlot :
    let e := enc 1 3 [0, 0, 0]
    (⟨1, 1, 1, 255⟩ : Pixel) ≠ e.prev ∧
    Cache.slot (encPixel ⟨1, 1, 1, 255⟩ e).cache (hash ⟨1, 1, 1, 255⟩) = ⟨1, 1, 1, 255⟩ := by decide
theorem witness_OneChunkKeepsTheLockstep :
    let e := enc 1 3 [1, 1, 1]
    let s := decState (dec 1 3 [0x7F, 0, 0, 0, 0])
    (⟨1, 1, 1, 255⟩ : Pixel) ≠ e.prev ∧ s.dec.prev = e.prev ∧ s.dec.cache = e.cache ∧ s.dec.pos + 5 ≤ s.dec.N := by
  decide
theorem witness_UnitsShareNothing : (∃ t, decMove repeating = .next t ∧ t.dec.n = 1) ∧
    ∃ t, encMove (encState (enc 1 3 [1, 2, 3])) = .next t ∧ t.enc.phase = .finish :=
  ⟨⟨_, rfl, rfl⟩, ⟨_, rfl, by decide⟩⟩
theorem witness_ColorspaceIsOpaque : (∃ t, decMove repeating = .next t ∧ t.dec.phase ≠ .error) ∧
    (∃ t, decMove (decState (dec 1 3 [])) = .next t ∧ t.dec.phase = .error) ∧
    ∃ t, encMove (encState (enc 1 3 [1, 2, 3])) = .next t ∧ t.enc.k = 1 :=
  ⟨⟨_, rfl, by decide⟩, ⟨_, rfl, by decide⟩, ⟨_, rfl, by decide⟩⟩
theorem witness_StartForgetsTheEarlierPass :
    (∃ t t', step (hostState (.decStart (encodeHeader 1 1 3 0))) = .next t ∧
      step { hostState (.decStart (encodeHeader 1 1 3 0)) with dec := { Dec.reset with phase := .done, run := 5 } }
        = .next t' ∧ t.dec.phase = .stream) ∧
    (∃ t t', step (hostState (.encStart 1 1 3 0 [1, 2, 3])) = .next t ∧
      step { hostState (.encStart 1 1 3 0 [1, 2, 3]) with enc := { Enc.reset with phase := .done, run := 5 } }
        = .next t' ∧ t.enc.phase = .pixels) :=
  ⟨⟨_, _, rfl, rfl, by decide⟩, ⟨_, _, rfl, rfl, by decide⟩⟩
theorem witness_ReadsOfStatusAndEarlyReads :
    (hostState (.readPhase .enc)).hostNext (.readPhase .enc) ∧ (hostState (.readPhase .dec)).hostNext (.readPhase .dec) ∧
    ((hostState (.readErr .enc)).hostNext (.readErr .enc) ∧ (hostState (.readErr .enc)).enc.err = .none) ∧
    ((hostState (.readErr .dec)).hostNext (.readErr .dec) ∧ (hostState (.readErr .dec)).dec.err = .none) ∧
    ((hostState .readOB).hostNext .readOB ∧ (hostState .readOB).enc.phase ≠ .done) ∧
    ((hostState .readPO).hostNext .readPO ∧ (hostState .readPO).dec.phase ≠ .done) ∧
    (hostState (.readAccessor .width)).hostNext (.readAccessor .width) := by decide
theorem witness_ReadsAtDoneGiveTheResult :
    (doneState .readOB).Inv ∧ (doneState .readOB).hostNext .readOB ∧ (doneState .readOB).enc.phase = .done ∧
    (doneState .readPO).hostNext .readPO ∧ (doneState .readPO).dec.phase = .done ∧
    (doneState (.readAccessor .channels)).hostNext (.readAccessor .channels) :=
  ⟨⟨by decide, by decide, by decide⟩, by decide⟩
/-- Each kind of the code table (60_exceptions.md R143) with the command that reads it. -/
theorem witness_ReadsOfErr (kind : ErrKind) :
    let s : State := { hostState (.readErr .dec) with dec := { Dec.reset with phase := .error, err := kind } }
    s.hostNext (.readErr .dec) ∧ s.dec.err = kind := by
  cases kind <;> decide
/-- 60_exceptions.md R143: the code of PixelCountMismatchError as the host reads it. -/
theorem test_readErr : replyAfter (step { hostState (.readErr .dec) with
    dec := { Dec.reset with phase := .error, err := .pixelCountMismatch } }) = some (.errCode 4) := by decide
/-- V-ENC-R1 read back by the host. -/
theorem test_readOB : replyAfter (step (doneState .readOB)) = some (.bytes
    [0x71, 0x6F, 0x69, 0x66, 0, 0, 0, 1, 0, 0, 0, 1, 3, 0, 0xC0, 0, 0, 0, 0, 0, 0, 0, 1]) := by decide
theorem witness_HeaderCommands :
    (hostState (.encodeHeader 4294967295 0 255 0)).hostNext (.encodeHeader 4294967295 0 255 0) ∧
    ¬((1 : Nat) < 2 ^ 32 ∧ (1 : Nat) < 2 ^ 32 ∧ 256 < 256 ∧ 0 < 256) ∧
    (hostState (.decodeHeader [])).hostNext (.decodeHeader []) ∧ decodeHeader [] = none ∧
    decodeHeader (encodeHeader 4294967295 0 3 0) = some ⟨4294967295, 0, 3, 0⟩ := by decide
/-- A unit in the middle of a pass meets the invariant, and its step goes on. -/
theorem witness_StepKeepsTheInvariant :
    (∃ t, repeating.Inv ∧ step repeating = .next t ∧ t.dec.po = [(0, 0), (1, 0), (2, 0)]) ∧
    (∃ t, (encState (enc 2 3 [0, 0, 0, 9, 9, 9])).Inv ∧
      step (encState (enc 2 3 [0, 0, 0, 9, 9, 9])) = .next t ∧ t.enc.k = 1) :=
  ⟨⟨_, ⟨by decide, by decide, by decide⟩, rfl, by decide⟩, ⟨_, ⟨by decide, by decide, by decide⟩, rfl, by decide⟩⟩
theorem witness_InvariantStatesNeverFault : atMarker.Inv ∧ (doneState .readPO).Inv :=
  ⟨⟨by decide, by decide, by decide⟩, ⟨by decide, by decide, by decide⟩⟩
theorem witness_ExactlyTheseMovesAreRefused :
    (∃ r, step { hostState (.decStart []) with dec := dec 1 3 [] } = .refused r) ∧
    (∃ r, step { hostState (.encStart 1 1 3 0 []) with enc := enc 1 3 [1, 2, 3] } = .refused r) ∧
    (∃ r, step (hostState (.encodeHeader 1 1 256 0)) = .refused r) :=
  ⟨⟨_, rfl⟩, ⟨_, rfl⟩, ⟨_, rfl⟩⟩
/-- Each of IDLE, DONE and ERROR, with a step that is no start of the unit. -/
theorem witness_ErrorIsLeftOnlyByAStart :
    ((∃ t, step (errorState [.dec]) = .next t) ∧ (errorState [.dec]).dec.phase = .error) ∧
    ((∃ t, step (errorState [.enc]) = .next t) ∧ (errorState [.enc]).enc.phase = .error) ∧
    ((∃ t, step (doneState .readPO) = .next t) ∧ (doneState .readPO).dec.phase = .done ∧
      (doneState .readPO).enc.phase = .done ∧ (doneState .readPO).hostNext .readPO) ∧
    ((∃ t, step State.reset = .next t) ∧ State.reset.dec.phase = .idle ∧ State.reset.enc.phase = .idle ∧
      State.reset.agenda = []) :=
  ⟨⟨⟨_, rfl⟩, rfl⟩, ⟨⟨_, rfl⟩, rfl⟩, ⟨⟨_, rfl⟩, by decide⟩, ⟨⟨_, rfl⟩, by decide⟩⟩
theorem witness_OperandsHeaderAndParametersStay :
    (∃ t, step repeating = .next t ∧ t.dec.hdr = ⟨2, 1, 3, 0⟩) ∧ (∃ t, step (errorState []) = .next t) ∧
    (errorState []).dec.phase ≠ .stream :=
  ⟨⟨_, rfl, rfl⟩, ⟨_, rfl⟩, by decide⟩
theorem witness_EveryDecPassEnds :
    let s : State := { repeating with agenda := [] }
    s.Inv ∧ s.agenda = [] ∧ s.dec.phase = .stream :=
  ⟨⟨by decide, by decide, by decide⟩, by decide⟩
theorem witness_EveryEncPassEnds :
    let s : State := { encState (enc 1 3 [1, 2, 3]) with agenda := [] }
    s.Inv ∧ s.agenda = [] ∧ s.dec.busy = false ∧ s.enc.phase = .pixels :=
  ⟨⟨by decide, by decide, by decide⟩, by decide⟩
theorem witness_RoundTrip :
    let s := hostState (.encStart 1 1 3 0 [10, 20, 30])
    validEncHeader 1 1 3 0 = true ∧ ([10, 20, 30] : List Byte).length = 1 * 1 * 3 ∧
    s.agenda = [.host (.encStart 1 1 3 0 [10, 20, 30])] ∧ s.enc.busy = false ∧ s.dec.busy = false := by decide

end Sys2Proof.Tests
end

section
/-! PROOFS. The arithmetic of 00_scope.md R20: what `wrap8` and `s8` give on every integer. -/

namespace Sys2Proof.Machine

/-- 00_scope.md R20: the byte `wrap8 x`, read as a number. -/
@[simp] theorem toNat_wrap8 (x : Int) : ((wrap8 x).toNat : Int) = x % 256 := by
  have nonneg : 0 ≤ x % 256 := Int.emod_nonneg x (by decide)
  calc ((wrap8 x).toNat : Int)
      = ((x % 256).toNat : Int) := congrArg Nat.cast (BitVec.toNat_ofInt x)
    _ = x % 256 := Int.toNat_of_nonneg nonneg

/-- 00_scope.md R20: `s8` by the residue alone, with no byte in between. -/
theorem s8_eq_ite_emod (x : Int) : s8 x = if 128 ≤ x % 256 then x % 256 - 256 else x % 256 := by
  simp only [s8, toNat_wrap8, ge_iff_le]

/-- Settles O8: the two formulas are the lemmas about `wrap8` and `s8`. -/
theorem wrapAndSignedWrap : Obligations.WrapAndSignedWrap :=
  fun x => ⟨toNat_wrap8 x, s8_eq_ite_emod x⟩

end Sys2Proof.Machine
end

section
/-! PROOFS. The hash of a pixel (10_state.md R51). -/

namespace Sys2Proof.Machine

/-- Settles O9: 64 divides 2^n, so the outer modulus alone decides the slot. -/
theorem hashNeedsSixBits : Obligations.HashNeedsSixBits := by
  intro p n hn
  have hdvd : 64 ∣ 2 ^ n := Nat.pow_dvd_pow 2 hn
  exact (Nat.mod_mod_of_dvd _ hdvd).symm

end Sys2Proof.Machine
end

section
/-! PROOFS. What the decoder of bytes answers: an instruction that stands at that position, its operands in
their ranges. -/

namespace Sys2Proof

theorem unbiased_bits_inRange (b : Byte) (lo width : Nat) (bias : Int) :
    inRange (-bias) (2 ^ width - 1 - bias) (unbiased (bits b lo width) bias) := by
  have hlt : ((bits b lo width : Nat) : Int) < 2 ^ width := mod_cast bits_lt b lo width
  unfold unbiased
  constructor <;> omega

theorem wellFormed_of_decodeChunk {bytes rest : List Byte} {i : Instr}
    (h : decodeChunk bytes = .ok (i, rest)) : wellFormed i = true ∧ i.position = .chunk := by
  cases bytes with
  | nil => exact nomatch h
  | cons b0 tail =>
    simp only [decodeChunk] at h
    split at h
    case h_1 => cases h; exact ⟨rfl, rfl⟩
    case h_2 =>
      cases h
      exact ⟨decide_eq_true ⟨unbiased_bits_inRange b0 4 2 2, unbiased_bits_inRange b0 2 2 2,
        unbiased_bits_inRange b0 0 2 2⟩, rfl⟩
    case h_3 =>
      split at h
      · next b1 _ =>
        cases h
        exact ⟨decide_eq_true ⟨unbiased_bits_inRange b0 0 6 32, unbiased_bits_inRange b1 4 4 8,
          unbiased_bits_inRange b1 0 4 8⟩, rfl⟩
      · exact nomatch h
    case h_4 hk =>
      cases h
      exact ⟨decide_eq_true ⟨Nat.le_add_left 1 _, (run_of_byte b0 hk).2⟩, rfl⟩
    case h_5 =>
      split at h
      · cases h; exact ⟨rfl, rfl⟩
      · exact nomatch h
    case h_6 =>
      split at h
      · cases h; exact ⟨rfl, rfl⟩
      · exact nomatch h

theorem decodeMarker_ok {bytes rest : List Byte} {i : Instr}
    (h : decodeMarker bytes = .ok (i, rest)) : i = .endMarker := by
  unfold decodeMarker at h
  split at h
  · exact nomatch h
  · split at h
    · cases h; rfl
    · exact nomatch h

theorem decodeHeaderBytes_ok {bytes rest : List Byte} {i : Instr}
    (h : decodeHeaderBytes bytes = .ok (i, rest)) : ∃ w v c cs, i = .header w v c cs := by
  unfold decodeHeaderBytes at h
  split at h
  · split at h
    · cases h; exact ⟨_, _, _, _, rfl⟩
    · exact nomatch h
  · exact nomatch h

end Sys2Proof
end

section
/-! PROOFS. What DEC's fetch, its stream step and its start command can do. -/

namespace Sys2Proof.Machine

/-! ### The fetch -/

theorem decode_of_fetched {p : Position} {bytes : List Byte} {i : Instr} (h : fetched p bytes = .instr i) :
    ∃ rest, decode p bytes = .ok (i, rest) := by
  unfold fetched at h
  split at h
  · next hd => cases h; exact ⟨_, hd⟩
  · exact nomatch h

/-- A chunk is fetched only where a byte is left. -/
theorem fetchChunk_instr {d : Dec} {i : Instr} (h : fetchChunk d = .instr i) :
    d.pos ≠ d.N ∧ wellFormed i = true ∧ i.position = .chunk := by
  unfold fetchChunk at h
  split at h
  · exact nomatch h
  · next hpos =>
    split at h
    · split at h
      · obtain ⟨rest, hd⟩ := decode_of_fetched h
        exact ⟨hpos, wellFormed_of_decodeChunk hd⟩
      · exact nomatch h
    · exact nomatch h

theorem fetchMarker_instr {d : Dec} {i : Instr} (h : fetchMarker d = .instr i) : i = .endMarker := by
  unfold fetchMarker at h
  split at h
  · obtain ⟨rest, hd⟩ := decode_of_fetched h
    exact decodeMarker_ok hd
  · exact nomatch h

theorem fetchHeader_instr {d : Dec} {i : Instr} (h : fetchHeader d = .instr i) :
    ∃ w v c cs, i = .header w v c cs := by
  unfold fetchHeader at h
  split at h
  · obtain ⟨rest, hd⟩ := decode_of_fetched h
    exact decodeHeaderBytes_ok hd
  · exact nomatch h

/-! ### The stream step -/

/-- What DEC's move in a pass can make of DEC (42_decoder.md R126 to R136), with the guard of each case.
`streamStep_next` ties it to the model. -/
inductive Dec.StreamStep (trailing : Config.TrailingBytes) (d : Dec) : Dec → Prop where
  /-- An error is entered; the operand is the one DEC had. -/
  | error (e : ErrKind) (d₀ : Dec) (hib : d₀.ib = d.ib) : StreamStep trailing d (raiseDec e d₀)
  | repeats (hrun : 0 < d.run) : StreamStep trailing d (repeatPixel d)
  /-- A chunk of `len` bytes outputs one pixel. -/
  | pixel (p : Pixel) (cache : Cache) (len : Nat) (hrun : d.run = 0) (hn : d.n < d.T) (hpos : d.pos ≠ d.N)
      (hlen : d.pos + len ≤ max d.N (d.pos + 1)) :
      StreamStep trailing d (pixOut p { advance len d with prev := p, cache := cache })
  | startRun (n : Nat) (hle : n ≤ 62) (hfit : d.n + n ≤ d.T) (hpos : d.pos ≠ d.N) :
      StreamStep trailing d { advance 1 d with run := n }
  | finish (hrun : d.run = 0) (hn : d.T ≤ d.n) (hpos : d.pos + 8 ≤ d.N)
      (hend : trailing = .reject → d.pos + 8 = d.N) :
      StreamStep trailing d { advance 8 d with phase := .done }

theorem runFetched_chunk_next {s t : State} (hrun : s.dec.run = 0) (hn : s.dec.n < s.dec.T)
    (h : runFetched (fetchChunk s.dec) s = .next t) :
    ∃ d, t = { s with dec := d } ∧ s.dec.StreamStep s.params.trailing d := by
  rcases runFetched_cases (fetchChunk s.dec) s with ⟨i, hf, hr⟩ | ⟨e, -, hr⟩ | ⟨r, -, hr⟩
  · obtain ⟨hpos, hwf, hchunk⟩ := fetchChunk_instr hf
    rcases exec_chunk_cases s hchunk with ⟨e, hx⟩ | ⟨p, hx, hlen⟩ | ⟨p, -, hx⟩ | ⟨n, rfl, hfit, hx⟩
    · cases (hr.trans hx).symm.trans h
      exact ⟨_, rfl, .error e s.dec rfl⟩
    · cases (hr.trans hx).symm.trans h
      exact ⟨_, rfl, .pixel p _ i.size hrun hn hpos hlen⟩
    · cases (hr.trans hx).symm.trans h
      exact ⟨_, rfl, .pixel p s.dec.cache 1 hrun hn hpos (le_max_right ..)⟩
    · cases (hr.trans hx).symm.trans h
      exact ⟨_, rfl, .startRun n (of_decide_eq_true hwf).2 hfit hpos⟩
  · cases hr.symm.trans h
    exact ⟨_, rfl, .error e s.dec rfl⟩
  · exact nomatch hr.symm.trans h

/-- The end check ends the pass or raises (42_decoder.md R136). -/
theorem streamStep_endOfStream {trailing : Config.TrailingBytes} {d : Dec} (hrun : d.run = 0)
    (hn : d.T ≤ d.n) : d.StreamStep trailing (endOfStream trailing d) := by
  unfold endOfStream
  split
  · exact .error .format d rfl
  · next hpos =>
    split
    · exact .error .format (advance 8 d) rfl
    · next htr => exact .finish hrun hn (by omega) fun hrej => by_contra fun hne => htr ⟨hne, hrej⟩

theorem runFetched_marker_next {s t : State} (hrun : s.dec.run = 0) (hn : s.dec.T ≤ s.dec.n)
    (h : runFetched (fetchMarker s.dec) s = .next t) :
    ∃ d, t = { s with dec := d } ∧ s.dec.StreamStep s.params.trailing d := by
  rcases runFetched_cases (fetchMarker s.dec) s with ⟨i, hf, hr⟩ | ⟨e, -, hr⟩ | ⟨r, -, hr⟩
  · cases fetchMarker_instr hf
    cases hr.symm.trans h
    exact ⟨_, rfl, streamStep_endOfStream hrun hn⟩
  · cases hr.symm.trans h
    exact ⟨_, rfl, .error e s.dec rfl⟩
  · exact nomatch hr.symm.trans h

theorem streamStep_next {s t : State} (h : streamStep s = .next t) :
    ∃ d, t = { s with dec := d } ∧ s.dec.StreamStep s.params.trailing d := by
  rcases streamStep_cases s with ⟨hrun, hs⟩ | ⟨hrun, hn, hs⟩ | ⟨hrun, hn, hs⟩
  · cases hs.symm.trans h
    exact ⟨_, rfl, .repeats hrun⟩
  · exact runFetched_chunk_next hrun hn (hs.symm.trans h)
  · exact runFetched_marker_next hrun hn (hs.symm.trans h)

/-- DEC's move: a stream step in a pass, nothing outside one. -/
theorem decMove_cases {s t : State} (h : decMove s = .next t) :
    (s.dec.phase = .stream ∧ ∃ d, t = { s with dec := d } ∧ s.dec.StreamStep s.params.trailing d) ∨
    (s.dec.phase ≠ .stream ∧ t = s) := by
  by_cases hp : s.dec.phase = .stream
  · simp only [decMove, hp] at h
    exact .inl ⟨hp, streamStep_next h⟩
  · obtain ⟨d, rfl, hd⟩ := decMove_next h
    exact .inr ⟨hp, by rw [hd hp]⟩

/-! ### The start command -/

/-- The header of a start command raises, or starts the pass if its fields are legal (42_decoder.md R122). -/
theorem runFetched_header_next {s t : State} (h : runFetched (fetchHeader s.dec) s = .next t) :
    (∃ e, t = { s with dec := raiseDec e s.dec }) ∨
    (∃ hdr, 14 ≤ s.dec.ib.len ∧ legalFields hdr.C hdr.CS = true ∧
      t = { s with dec := initDec hdr s.dec }) := by
  rcases runFetched_cases (fetchHeader s.dec) s with ⟨i, hf, hr⟩ | ⟨e, -, hr⟩ | ⟨r, -, hr⟩
  · obtain ⟨w, v, c, cs, rfl⟩ := fetchHeader_instr hf
    have hx := hr.symm.trans h
    simp only [exec, execHeader, Config.headerBytes] at hx
    split at hx
    · cases hx; exact .inl ⟨_, rfl⟩
    · next hok =>
      cases hx
      obtain ⟨hlen, hleg⟩ := not_or.1 hok
      exact .inr ⟨⟨w, v, c, cs⟩, Nat.le_of_not_lt hlen, Bool.eq_true_of_not_eq_false hleg, rfl⟩
  · cases hr.symm.trans h
    exact .inl ⟨e, rfl⟩
  · exact nomatch hr.symm.trans h

end Sys2Proof.Machine
end

section
/-! PROOFS. The invariant of DEC: each thing a step can make of DEC meets it. -/

namespace Sys2Proof.Machine

/-- Of a stopped DEC the invariant asks for canonical memory and a complete operand only. -/
theorem Dec.inv_raiseDec (e : ErrKind) {d : Dec} (hib : d.ib.complete) : (raiseDec e d).Inv :=
  ⟨Memory.wf_ofCells _, hib, fun h => h.elim nofun nofun, nofun⟩

theorem Dec.inv_initDec {hdr : Header} {d : Dec} (hib : d.ib.complete) (hlen : 14 ≤ d.ib.len)
    (hleg : legalFields hdr.C hdr.CS = true) : (initDec hdr d).Inv := by
  refine ⟨List.Pairwise.nil, hib, fun _ => ?_, nofun⟩
  exact ⟨rfl, hleg, rfl, le_rfl, hlen, Nat.zero_le _, Nat.zero_le _,
    (Nat.zero_mul hdr.stride).symm ▸ Memory.covers_nil⟩

theorem Dec.inv_of_streamStep {trailing : Config.TrailingBytes} {d d' : Dec} (h : d.Inv)
    (hp : d.phase = .stream) (hs : d.StreamStep trailing d') : d'.Inv := by
  obtain ⟨hwf, hib, hroll, -⟩ := h
  obtain ⟨herr, hleg, hN, h14, hposN, hfit, hrun, hcov⟩ := hroll (.inl hp)
  have hC := ((legalFields_iff ..).1 hleg).1
  have hnd : d.phase ≠ .done := by rw [hp]; decide
  cases hs with
  | error e d₀ hib₀ => exact Dec.inv_raiseDec e (hib₀ ▸ hib)
  | repeats hrun0 =>
    refine ⟨wf_pixOut _ hwf, hib, fun _ => ?_, fun h => absurd h hnd⟩
    exact ⟨herr, hleg, hN, h14, hposN, show d.n + 1 + (d.run - 1) ≤ d.T by omega,
      show d.run - 1 ≤ 62 by omega, covers_pixOut _ hC hcov⟩
  | pixel p cache len hrun0 hn hpos hlen =>
    refine ⟨wf_pixOut _ hwf, hib, fun _ => ?_, fun h => absurd h hnd⟩
    exact ⟨herr, hleg, hN, show 14 ≤ d.pos + len by omega, show d.pos + len ≤ d.N by omega,
      show d.n + 1 + d.run ≤ d.T by omega, hrun, covers_pixOut _ hC hcov⟩
  | startRun n hle hfit' hpos =>
    refine ⟨hwf, hib, fun _ => ?_, fun h => absurd h hnd⟩
    exact ⟨herr, hleg, hN, show 14 ≤ d.pos + 1 by omega, show d.pos + 1 ≤ d.N by omega, hfit', hle, hcov⟩
  | finish hrun0 hn hpos hend =>
    refine ⟨hwf, hib, fun _ => ?_, fun _ => ⟨show d.n = d.T by omega, hrun0⟩⟩
    exact ⟨herr, hleg, hN, show 14 ≤ d.pos + 8 by omega, hpos, hfit, hrun, hcov⟩

/-- Under `reject` a stream step that ends the pass has consumed the whole input (42_decoder.md R136). -/
theorem Dec.pos_of_streamStep_done {d d' : Dec} (hp : d.phase = .stream)
    (hs : d.StreamStep .reject d') (hdone : d'.phase = .done) : d'.pos = d'.N := by
  have hnd : d.phase ≠ .done := by rw [hp]; decide
  cases hs with
  | error e d₀ hib => exact nomatch hdone
  | repeats hrun => exact absurd hdone hnd
  | pixel p cache len hrun hn hpos hlen => exact absurd hdone hnd
  | startRun n hle hfit hpos => exact absurd hdone hnd
  | finish hrun hn hpos hend => exact hend rfl

end Sys2Proof.Machine
end

section
/-! PROOFS. The invariant of ENC: its start step, its pixel step and its finish step keep it. -/

namespace Sys2Proof.Machine

/-! ### Chunk lengths -/

theorem length_encode (i : Instr) : (encode i).length = i.size := by cases i <;> rfl

theorem size_of_chunk {i : Instr} (h : i.position = .chunk) : 1 ≤ i.size ∧ i.size ≤ 5 := by
  cases i with
  | endMarker => exact nomatch h
  | header _ _ _ _ => exact nomatch h
  | _ => simp [Instr.size]

theorem position_literalFor (p prev : Pixel) : (literalFor p prev).position = .chunk := by
  unfold literalFor
  dsimp only
  split
  · split
    · rfl
    · split <;> rfl
  · rfl

/-- A differing pixel is one chunk of at most five bytes. -/
theorem codePixel_oc_bounds (p : Pixel) (e : Enc) :
    e.oc + 1 ≤ (codePixel p e).oc ∧ (codePixel p e).oc ≤ e.oc + 5 := by
  rcases codePixel_cases p e with ⟨-, ⟨hoc, -⟩, -⟩ | ⟨-, ⟨hoc, -⟩, -⟩
  · have := size_of_chunk (i := .index (hash p)) rfl
    rw [hoc, length_encode]
    omega
  · have := size_of_chunk (position_literalFor p e.prev)
    rw [hoc, length_encode]
    omega

/-! ### OB -/

/-- OB holds exactly the bytes counted, and begins with the header ENC latched. -/
def Enc.headed (e : Enc) : Prop :=
  e.ob.covers e.oc ∧ 14 ≤ e.oc ∧
    Memory.readBytes e.ob 0 14 = some (encodeHeader e.hdr.W e.hdr.H e.hdr.C e.hdr.CS)

theorem headed_emit (bs : List Byte) {e : Enc} (h : e.headed) : (emit bs e).headed := by
  obtain ⟨hcov, h14, hhead⟩ := h
  refine ⟨Memory.covers_writeBytes bs hcov, Nat.le_add_right_of_le h14, ?_⟩
  have hsame : Memory.readBytes (emit bs e).ob 0 14 = Memory.readBytes e.ob 0 14 :=
    Memory.readBytes_congr 14 fun b _ hb => Memory.read_writeBytes_outside _ _ (.inl (by omega))
  exact hsame.trans hhead

theorem headed_flushRun {e : Enc} (h : e.headed) : (flushRun e).headed := by
  unfold flushRun
  split
  · exact headed_emit _ h
  · exact h

theorem headed_codePixel (p : Pixel) {e : Enc} (h : e.headed) : (codePixel p e).headed := by
  unfold codePixel
  split
  · exact headed_emit _ h
  · exact headed_emit _ (e := { e with cache := _ }) h

theorem headed_encPixel (p : Pixel) {e : Enc} (h : e.headed) : (encPixel p e).headed := by
  rcases encPixel_cases p e with ⟨-, -, hx⟩ | ⟨-, -, hx⟩ | ⟨-, hx⟩ <;> rw [hx]
  · exact h
  · exact headed_emit _ h
  · exact headed_codePixel p (headed_flushRun h)

/-! ### The registers of a pixel step -/

theorem encPixel_run_le (p : Pixel) (e : Enc) : (encPixel p e).run ≤ 62 := by
  rcases encPixel_cases p e with ⟨-, hlt, hx⟩ | ⟨-, -, hx⟩ | ⟨-, hx⟩ <;> rw [hx]
  · exact hlt
  · show 1 ≤ 62; decide
  · simp

theorem encPixel_cache_of_eq {p : Pixel} {e : Enc} (h : p = e.prev) : (encPixel p e).cache = e.cache := by
  rcases encPixel_cases p e with ⟨-, -, hx⟩ | ⟨-, -, hx⟩ | ⟨hne, -⟩
  · rw [hx]
  · rw [hx]; rfl
  · exact absurd h hne

/-- A differing pixel is in its slot afterwards, and a repeated one stays there (41_encoder.md R121). -/
theorem slot_encPixel {p : Pixel} {e : Enc} (h : p ≠ e.prev ∨ Cache.slot e.cache (hash e.prev) = e.prev) :
    Cache.slot (encPixel p e).cache (hash p) = p := by
  by_cases hp : p = e.prev
  · rw [encPixel_cache_of_eq hp, hp]
    exact h.resolve_left (absurd hp)
  · rcases encPixel_cases p e with ⟨heq, -⟩ | ⟨heq, -⟩ | ⟨-, hx⟩
    · exact absurd heq hp
    · exact absurd heq hp
    · rw [hx]
      rcases codePixel_cases p (flushRun e) with ⟨hslot, -, hcache⟩ | ⟨-, -, hslot, -⟩
      · exact hcache ▸ hslot
      · exact hslot

/-- The slot clause of the invariant: `prev` is in its slot, or no pixel has differed from the seed. -/
theorem prevClause_encPixel (p : Pixel) {e : Enc}
    (h : Cache.slot e.cache (hash e.prev) = e.prev ∨ e.prev = Pixel.seed ∧ e.cache = Cache.cleared) :
    Cache.slot (encPixel p e).cache (hash p) = p ∨ p = Pixel.seed ∧ (encPixel p e).cache = Cache.cleared := by
  by_cases hp : p = e.prev
  · rcases h with hslot | ⟨hseed, hclear⟩
    · exact .inl (slot_encPixel (.inr hslot))
    · exact .inr ⟨hp.trans hseed, (encPixel_cache_of_eq hp).trans hclear⟩
  · exact .inl (slot_encPixel (.inl hp))

/-- With a pending run counted as the one byte that its flush will write, a pixel step adds at most five bytes
(41_encoder.md R117). -/
theorem outputBounds_encPixel (p : Pixel) {e : Enc} (h : e.outputBounds) :
    ({ encPixel p e with k := e.k + 1 } : Enc).outputBounds := by
  obtain ⟨h14, hlow, hhigh⟩ := h
  rcases encPixel_cases p e with ⟨-, -, hx⟩ | ⟨-, hrun, hx⟩ | ⟨-, hx⟩ <;> rw [hx]
  · dsimp only [Enc.outputBounds]
    omega
  · have hlen : (emit (encode (.run 62)) e).oc = e.oc + 1 := rfl
    simp only [Enc.outputBounds, hlen]
    omega
  · have hflush := flushRun_oc e
    obtain ⟨hmin, hmax⟩ := codePixel_oc_bounds p (flushRun e)
    simp only [Enc.outputBounds, codePixel_run, flushRun_run]
    omega

theorem pixIn_alpha {e : Enc} {k : Nat} {p : Pixel} (hC : e.hdr.C = 3) (h : pixIn e k = some p) :
    p.a = 255 := by
  have hne : e.hdr.C ≠ 4 := by rw [hC]; decide
  simp only [pixIn, if_neg hne] at h
  split at h
  · cases h; rfl
  · exact nomatch h

/-! ### The three steps -/

theorem Enc.inv_raiseEnc (err : ErrKind) {e : Enc} (hpb : e.pb.complete) : (raiseEnc err e).Inv :=
  ⟨Memory.wf_ofCells _, hpb, fun h => h.elim nofun (·.elim nofun nofun), nofun, nofun, nofun⟩

theorem one_le_T_of_valid {e : Enc}
    (h : validEncHeader e.hdr.W.toNat e.hdr.H.toNat e.hdr.C.toNat e.hdr.CS.toNat = true) : 1 ≤ e.T := by
  obtain ⟨hw, -, hh, -⟩ := of_decide_eq_true h
  exact Nat.mul_pos hw hh

theorem rolling_encPixelStep {p : Pixel} {e : Enc} (hp : pixIn e e.k = some p) (h : e.rolling)
    (h14 : 14 ≤ e.oc) : (encPixelStep p e).rolling := by
  obtain ⟨herr, hval, hpb, hcov, hhead, -, -, hslot⟩ := h
  obtain ⟨hcov', -, hhead'⟩ := headed_encPixel p ⟨hcov, h14, hhead⟩
  have hhdr : (encPixelStep p e).hdr = e.hdr := encPixel_hdr p e
  refine ⟨(encPixel_err p e).trans herr, hhdr ▸ hval, ?_, hcov', hhead', encPixel_run_le p e, ?_,
    prevClause_encPixel p hslot⟩
  · rw [Enc.T, hhdr]
    exact (congrArg Buffer.len (encPixel_pb p e)).trans hpb
  · rw [hhdr]
    exact fun hC => pixIn_alpha hC hp

/-- The pixel step goes to FINISH after the last pixel, and stays in PIXELS before it. -/
theorem encPixelStep_phase_cases (p : Pixel) {e : Enc} (hk : e.k < e.T) :
    ((encPixelStep p e).phase = .pixels ∧ e.k + 1 < e.T) ∨
    ((encPixelStep p e).phase = .finish ∧ e.k + 1 = e.T) := by
  by_cases hlast : e.k + 1 = e.T
  · exact .inr ⟨if_pos hlast, hlast⟩
  · exact .inl ⟨if_neg hlast, by omega⟩

theorem Enc.inv_encPixelStep {p : Pixel} {e : Enc} (h : e.Inv) (hph : e.phase = .pixels)
    (hp : pixIn e e.k = some p) : (encPixelStep p e).Inv := by
  obtain ⟨-, hpb, hroll, hpix, -, -⟩ := h
  obtain ⟨hk, hbounds⟩ := hpix hph
  have hroll' := rolling_encPixelStep hp (hroll (.inl hph)) hbounds.1
  have hbounds' : (encPixelStep p e).outputBounds := outputBounds_encPixel p hbounds
  have hT : (encPixelStep p e).T = e.T := congrArg Header.pixels (encPixel_hdr p e)
  have hpb' : (encPixelStep p e).pb.complete := (encPixel_pb p e).symm ▸ hpb
  obtain ⟨-, -, -, hcov, -⟩ := id hroll'
  refine ⟨Memory.wf_of_covers hcov, hpb', fun _ => hroll', ?_⟩
  rw [hT]
  rcases encPixelStep_phase_cases p hk with ⟨hph', hk'⟩ | ⟨hph', hk'⟩ <;> rw [hph']
  · exact ⟨fun _ => ⟨hk', hbounds'⟩, nofun, nofun⟩
  · exact ⟨nofun, fun _ => ⟨hk', hbounds'⟩, nofun⟩

/-- The finish step adds the pending run's byte and the eight of the marker (41_encoder.md R117). -/
theorem encFinish_oc (e : Enc) : (encFinish e).oc = e.oc + min e.run 1 + 8 :=
  congrArg (· + 8) (flushRun_oc e)

theorem Enc.inv_encFinish {e : Enc} (h : e.Inv) (hph : e.phase = .finish) : (encFinish e).Inv := by
  obtain ⟨-, hpb, hroll, -, hfin, -⟩ := h
  obtain ⟨hk, h14, hlow, hhigh⟩ := hfin hph
  obtain ⟨herr, hval, hlen, hcov, hhead, -, halpha, hslot⟩ := hroll (.inr (.inl hph))
  obtain ⟨hcov', -, hhead'⟩ := headed_emit (encode .endMarker) (headed_flushRun ⟨hcov, h14, hhead⟩)
  have hhdr : (encFinish e).hdr = e.hdr := flushRun_hdr e
  have hT : (encFinish e).T = e.T := congrArg Header.pixels hhdr
  have hpb' : (encFinish e).pb = e.pb := flushRun_pb e
  have hrun : (encFinish e).run = 0 := flushRun_run e
  have hprev : (encFinish e).prev = e.prev := flushRun_prev e
  have hcache : (encFinish e).cache = e.cache := flushRun_cache e
  have hkT : (encFinish e).k = e.T := (flushRun_k e).trans hk
  have hoc := encFinish_oc e
  have hpos := one_le_T_of_valid hval
  refine ⟨Memory.wf_of_covers hcov', hpb'.symm ▸ hpb, fun _ => ?_, nofun, nofun, fun _ => ?_⟩
  · refine ⟨(flushRun_err e).trans herr, hhdr ▸ hval, ?_, hcov', hhead', hrun ▸ Nat.zero_le 62, ?_, ?_⟩
    · rw [hpb', hT, hhdr, hlen]
    · rwa [hhdr, hprev]
    · rwa [hprev, hcache]
  · rw [hT]
    exact ⟨hkT, hrun, by omega, by omega⟩

/-- The header that an accepted start latches, as numbers. -/
theorem toNat_of_validEncHeader {w v c cs : Nat} (h : validEncHeader w v c cs = true) :
    (BitVec.ofNat 32 w).toNat = w ∧ (BitVec.ofNat 32 v).toNat = v ∧ (BitVec.ofNat 8 c).toNat = c ∧
      (BitVec.ofNat 8 cs).toNat = cs := by
  obtain ⟨-, hw, -, hv, hc, hcs⟩ := of_decide_eq_true h
  simp only [BitVec.toNat_ofNat]
  omega

/-- A pass that starts with a legal header and its whole image (41_encoder.md R102). -/
theorem Enc.inv_start {hdr : Header} {e : Enc} {bs : List Byte}
    (hbs : bs = encodeHeader hdr.W hdr.H hdr.C hdr.CS) (hpb : e.pb.complete)
    (hval : validEncHeader hdr.W.toNat hdr.H.toNat hdr.C.toNat hdr.CS.toNat = true)
    (hlen : e.pb.len = hdr.pixels * hdr.stride) :
    ({ emit bs (initEnc hdr e) with phase := .pixels } : Enc).Inv := by
  have h14 : bs.length = 14 := by rw [hbs]; rfl
  have hcov : Memory.covers (Memory.writeBytes [] 0 bs) (0 + bs.length) :=
    Memory.covers_writeBytes bs Memory.covers_nil
  have hread : Memory.readBytes (Memory.writeBytes [] 0 bs) 0 14 = some bs :=
    h14 ▸ Memory.readBytes_writeBytes bs [] 0
  refine ⟨Memory.wf_of_covers hcov, hpb, fun _ => ?_, fun _ => ⟨?_, ?_⟩, nofun, nofun⟩
  · exact ⟨rfl, hval, hlen, hcov, hbs ▸ hread, Nat.zero_le 62, fun _ => rfl, .inr ⟨rfl, rfl⟩⟩
  · exact one_le_T_of_valid (e := initEnc hdr e) hval
  · simp [Enc.outputBounds, h14]

theorem Enc.inv_encStart (w v c cs : Nat) {e : Enc} (hpb : e.pb.complete) : (encStart w v c cs e).Inv := by
  unfold encStart
  split
  · exact Enc.inv_raiseEnc _ hpb
  · next hval =>
    split
    · exact Enc.inv_raiseEnc _ hpb
    · next hlen =>
      have hval : validEncHeader w v c cs = true := Bool.eq_true_of_not_eq_false hval
      obtain ⟨hw, hv, hc, hcs⟩ := toNat_of_validEncHeader hval
      apply Enc.inv_start rfl hpb
      · rwa [hw, hv, hc, hcs]
      · simp only [Header.pixels, Header.stride, hw, hv, hc]
        exact not_not.1 hlen

end Sys2Proof.Machine
end

section
/-! PROOFS. Every move of every agent keeps the invariant of the machine. -/

namespace Sys2Proof.Machine

theorem State.inv_decMove {s t : State} (h : s.Inv) (hm : decMove s = .next t) : t.Inv := by
  obtain ⟨henc, hdec, hend⟩ := h
  rcases decMove_cases hm with ⟨hp, d, rfl, hs⟩ | ⟨-, rfl⟩
  · exact ⟨henc, Dec.inv_of_streamStep hdec hp hs,
      fun hrej hdone => Dec.pos_of_streamStep_done hp (hrej ▸ hs) hdone⟩
  · exact ⟨henc, hdec, hend⟩

theorem State.inv_encMove {s t : State} (h : s.Inv) (hm : encMove s = .next t) : t.Inv := by
  obtain ⟨henc, hrest⟩ := h
  rcases encMove_cases hm with ⟨hp, p, hpix, rfl⟩ | ⟨hp, rfl⟩ | ⟨-, rfl⟩
  · exact ⟨Enc.inv_encPixelStep henc hp hpix, hrest⟩
  · exact ⟨Enc.inv_encFinish henc hp, hrest⟩
  · exact ⟨henc, hrest⟩

theorem State.inv_hostMove {c : Command} {s t : State} (h : s.Inv) (hm : hostMove c s = .next t) : t.Inv := by
  obtain ⟨henc, hrest⟩ := h
  rcases hostMove_cases hm with ⟨w, v, ch, cs, pb, -, -, rfl⟩ | ⟨ib, d, -, -, -, hrun⟩ | ⟨r, rfl⟩
  · exact ⟨Enc.inv_encStart w v ch cs (Buffer.complete_ofBytes pb), hrest⟩
  · have hib := Buffer.complete_ofBytes ib
    rcases runFetched_header_next (s := { s with dec := _ }) hrun with ⟨e, rfl⟩ | ⟨hdr, hlen, hleg, rfl⟩
    · exact ⟨henc, Dec.inv_raiseDec e hib, fun _ => nofun⟩
    · exact ⟨henc, Dec.inv_initDec hib hlen hleg, fun _ => nofun⟩
  · exact ⟨henc, hrest⟩

/-- Settles O53, agent by agent: the moves of the host, of ENC and of DEC each keep the invariant, and taking
the agenda's entry off does not touch it. -/
theorem stepKeepsTheInvariant : Obligations.StepKeepsTheInvariant := by
  intro s t hinv hstep
  have hpop : s.popped.Inv := hinv
  rcases step_cases s with ⟨c, -, hs⟩ | ⟨-, hs⟩ | ⟨-, hs⟩
  · exact State.inv_hostMove hpop (hs.symm.trans hstep)
  · exact State.inv_encMove hpop (hs.symm.trans hstep)
  · exact State.inv_decMove hpop (hs.symm.trans hstep)

end Sys2Proof.Machine
end

section
/-! PROOFS. The units share nothing: a move of one neither reads nor changes the other. -/

namespace Sys2Proof.Machine

/-- An instruction does the same to DEC whatever ENC holds. -/
theorem exec_withEnc (i : Instr) (s : State) (e : Enc) :
    ∃ d, exec i s = .next { s with dec := d } ∧
      exec i { s with enc := e } = .next { s with dec := d, enc := e } := by
  cases i <;> simp only [exec, execIndex, execDiff, execLuma, execRun, execRgb, execRgba, execEndMarker,
    execHeader]
  case index | diff | endMarker => exact ⟨_, rfl, rfl⟩
  case luma | run | rgb | rgba | header => split <;> exact ⟨_, rfl, rfl⟩

theorem runFetched_withEnc {f : Fetched} {s t : State} (e : Enc) (h : runFetched f s = .next t) :
    runFetched f { s with enc := e } = .next { t with enc := e } := by
  cases f with
  | instr i =>
    obtain ⟨d, hs, hse⟩ := exec_withEnc i s e
    cases hs.symm.trans h
    exact hse
  | raise err => cases h; rfl
  | fault r => exact nomatch h

theorem streamStep_withEnc {s t : State} (e : Enc) (h : streamStep s = .next t) :
    streamStep { s with enc := e } = .next { t with enc := e } := by
  unfold streamStep at h ⊢
  dsimp only
  split
  · next hrun => rw [if_pos hrun] at h; cases h; rfl
  · next hrun =>
    rw [if_neg hrun] at h
    split
    · next hn => rw [if_pos hn] at h; exact runFetched_withEnc e h
    · next hn => rw [if_neg hn] at h; exact runFetched_withEnc e h

theorem decMove_of_not_stream {s : State} (h : s.dec.phase ≠ .stream) : decMove s = .next s := by
  unfold decMove
  split
  · next hp => exact absurd hp h
  all_goals rfl

theorem decMove_withEnc {s t : State} (e : Enc) (h : decMove s = .next t) :
    decMove { s with enc := e } = .next { t with enc := e } := by
  by_cases hp : s.dec.phase = .stream
  · simp only [decMove, hp] at h ⊢
    exact streamStep_withEnc e h
  · cases (decMove_of_not_stream hp).symm.trans h
    exact decMove_of_not_stream hp

theorem encMove_of_not_busy {s : State} (h : s.enc.busy = false) : encMove s = .next s := by
  unfold encMove
  split
  · next hp => simp [Enc.busy, hp] at h
  · next hp => simp [Enc.busy, hp] at h
  all_goals rfl

theorem encMove_withDec {s t : State} (d : Dec) (h : encMove s = .next t) :
    encMove { s with dec := d } = .next { t with dec := d } := by
  rcases encMove_cases h with ⟨hp, p, hpix, rfl⟩ | ⟨hp, rfl⟩ | ⟨hb, rfl⟩
  · simp only [encMove, hp, hpix]
  · simp only [encMove, hp]
  · exact encMove_of_not_busy hb

theorem encMove_dec {s t : State} (h : encMove s = .next t) : t.dec = s.dec ∧ t.params = s.params := by
  rcases encMove_cases h with ⟨-, p, -, rfl⟩ | ⟨-, rfl⟩ | ⟨-, rfl⟩ <;> exact ⟨rfl, rfl⟩

theorem decMove_enc {s t : State} (h : decMove s = .next t) : t.enc = s.enc ∧ t.params = s.params := by
  obtain ⟨d, rfl, -⟩ := decMove_next h
  exact ⟨rfl, rfl⟩

/-- Settles O45: each unit's move leaves the other and does the same whatever the other holds. -/
theorem unitsShareNothing : Obligations.UnitsShareNothing :=
  ⟨fun _ _ e h => ⟨(decMove_enc h).1, decMove_withEnc e h⟩,
    fun _ _ d h => ⟨(encMove_dec h).1, encMove_withDec d h⟩⟩

end Sys2Proof.Machine
end

section
/-! PROOFS. Operands, header registers and parameters: only a start command writes the first two, and nothing
writes the last. -/

namespace Sys2Proof.Machine

/-! ### The units' own moves -/

theorem Dec.ib_of_streamStep {trailing : Config.TrailingBytes} {d d' : Dec} (h : d.StreamStep trailing d') :
    d'.ib = d.ib := by
  cases h with
  | error e d₀ hib => exact hib
  | repeats _ => rfl
  | pixel _ _ _ _ _ _ _ => rfl
  | startRun _ _ _ _ => rfl
  | finish _ _ _ _ => rfl

/-- A stream step keeps the header register, unless it enters an error (log entry 2). -/
theorem Dec.hdr_of_streamStep {trailing : Config.TrailingBytes} {d d' : Dec} (h : d.StreamStep trailing d') :
    d'.phase = .error ∨ d'.hdr = d.hdr := by
  cases h with
  | error e d₀ hib => exact .inl rfl
  | repeats _ => exact .inr rfl
  | pixel _ _ _ _ _ _ _ => exact .inr rfl
  | startRun _ _ _ _ => exact .inr rfl
  | finish _ _ _ _ => exact .inr rfl

theorem encMove_pb_hdr {s t : State} (h : encMove s = .next t) :
    t.enc.pb = s.enc.pb ∧ t.enc.hdr = s.enc.hdr := by
  rcases encMove_cases h with ⟨-, p, -, rfl⟩ | ⟨-, rfl⟩ | ⟨-, rfl⟩
  · exact ⟨encPixel_pb p s.enc, encPixel_hdr p s.enc⟩
  · exact ⟨flushRun_pb s.enc, flushRun_hdr s.enc⟩
  · exact ⟨rfl, rfl⟩

/-! ### What each unit keeps of its control registers -/

/-- The operand of DEC stays, and its header register but for an error in a pass (log entry 2). -/
def Dec.keepsControl (d d' : Dec) : Prop :=
  d'.ib = d.ib ∧ (d.phase = .stream → d'.phase = .error ∨ d'.hdr = d.hdr) ∧
    (d.phase ≠ .stream → d'.hdr = d.hdr)

theorem Dec.keepsControl_refl (d : Dec) : d.keepsControl d := ⟨rfl, fun _ => .inr rfl, fun _ => rfl⟩

theorem decMove_keepsControl {s t : State} (h : decMove s = .next t) : s.dec.keepsControl t.dec := by
  rcases decMove_cases h with ⟨hp, d, rfl, hs⟩ | ⟨-, rfl⟩
  · exact ⟨Dec.ib_of_streamStep hs, fun _ => Dec.hdr_of_streamStep hs, absurd hp⟩
  · exact Dec.keepsControl_refl _

/-- A command that is no start of DEC leaves DEC, one that is no start of ENC leaves ENC, and none writes the
parameters. -/
theorem hostMove_frame {c : Command} {s t : State} (h : hostMove c s = .next t) :
    t.params = s.params ∧ ((∀ ib, c ≠ .decStart ib) → t.dec = s.dec) ∧
      ((∀ w v ch cs pb, c ≠ .encStart w v ch cs pb) → t.enc = s.enc) := by
  rcases hostMove_cases h with ⟨w, v, ch, cs, pb, rfl, -, rfl⟩ | ⟨ib, d, rfl, -, rfl, -⟩ | ⟨r, rfl⟩
  · exact ⟨rfl, fun _ => rfl, fun hc => absurd rfl (hc w v ch cs pb)⟩
  · exact ⟨rfl, fun hc => absurd rfl (hc ib), fun _ => rfl⟩
  · exact ⟨rfl, fun _ => rfl, fun _ => rfl⟩

/-- Settles O57: by the agent that moves. -/
theorem operandsHeaderAndParametersStay : Obligations.OperandsHeaderAndParametersStay := by
  intro s t hstep
  rcases step_cases s with ⟨c, hc, hs⟩ | ⟨-, hs⟩ | ⟨-, hs⟩
  · obtain ⟨hparams, hdec, henc⟩ := hostMove_frame (hs.symm.trans hstep)
    refine ⟨hparams, fun hno => ?_, fun hno => ?_⟩
    · rw [hdec fun ib heq => hno ib (heq ▸ hc)]
      exact Dec.keepsControl_refl _
    · rw [henc fun w v ch cs pb heq => hno w v ch cs pb (heq ▸ hc)]
      exact ⟨rfl, rfl⟩
  · have hm := hs.symm.trans hstep
    have hkept := encMove_pb_hdr hm
    obtain ⟨hdec, hparams⟩ := encMove_dec hm
    exact ⟨hparams, fun _ => hdec ▸ Dec.keepsControl_refl _, fun _ => hkept⟩
  · have hm := hs.symm.trans hstep
    have hkept := decMove_keepsControl hm
    obtain ⟨henc, hparams⟩ := decMove_enc hm
    exact ⟨hparams, fun _ => hkept, fun _ => henc ▸ ⟨rfl, rfl⟩⟩

end Sys2Proof.Machine
end

section
/-! PROOFS. The bytes of a header (20_memory.md R62, R70): its integers as positional sums of their bytes. -/

namespace Sys2Proof.Machine

/-- 20_memory.md R62: four bytes always fit a u32, so `be32` loses nothing of their positional sum. -/
theorem toNat_be32 (x3 x2 x1 x0 : Byte) : (be32 x3 x2 x1 x0).toNat =
    x3.toNat * 2 ^ 24 + x2.toNat * 2 ^ 16 + x1.toNat * 2 ^ 8 + x0.toNat := by
  have := x3.isLt; have := x2.isLt; have := x1.isLt; have := x0.isLt
  exact (BitVec.toNat_ofNat _ 32).trans (Nat.mod_eq_of_lt (by omega))

/-- 30_encoding.md R78: a u32 is the positional sum of the bytes the header holds for it. -/
theorem toNat_eq_sum_u32Byte (w : U32) : w.toNat =
    (u32Byte w 3).toNat * 2 ^ 24 + (u32Byte w 2).toNat * 2 ^ 16 +
      (u32Byte w 1).toNat * 2 ^ 8 + (u32Byte w 0).toNat :=
  calc w.toNat
      = (be32 (u32Byte w 3) (u32Byte w 2) (u32Byte w 1) (u32Byte w 0)).toNat :=
        congrArg BitVec.toNat (be32_u32Byte w).symm
    _ = _ := toNat_be32 _ _ _ _

/-- Settles O7: the bytes are those `encodeHeader` writes, and each integer is the sum of its four. -/
theorem headerLayout : Obligations.HeaderLayout :=
  fun w h _ _ => ⟨u32Byte w 3, u32Byte w 2, u32Byte w 1, u32Byte w 0,
    u32Byte h 3, u32Byte h 2, u32Byte h 1, u32Byte h 0,
    rfl, toNat_eq_sum_u32Byte w, toNat_eq_sum_u32Byte h⟩

end Sys2Proof.Machine
end

section
/-! PROOFS. The decoder and the encoder invert each other (30_encoding.md R78 to R86, R95), and every first
byte selects a chunk (R86, R90, R93). -/

namespace Sys2Proof

/-! ### One equation of the chunk decoder per kind -/

section
variable {b0 : Byte} (rest : List Byte)

theorem decodeChunk_of_index (h : chunkKind b0 = .index) : decodeChunk (b0 :: rest) =
    .ok (.index (Fin.ofNat 64 (bits b0 0 6)), rest) := by
  simp only [decodeChunk, h]

theorem decodeChunk_of_diff (h : chunkKind b0 = .diff) : decodeChunk (b0 :: rest) =
    .ok (.diff (unbiased (bits b0 4 2) 2) (unbiased (bits b0 2 2) 2) (unbiased (bits b0 0 2) 2), rest) := by
  simp only [decodeChunk, h]

theorem decodeChunk_of_luma (h : chunkKind b0 = .luma) (b1 : Byte) : decodeChunk (b0 :: b1 :: rest) =
    .ok (.luma (unbiased (bits b0 0 6) 32) (unbiased (bits b1 4 4) 8) (unbiased (bits b1 0 4) 8), rest) := by
  simp only [decodeChunk, h]

theorem decodeChunk_of_run (h : chunkKind b0 = .run) : decodeChunk (b0 :: rest) =
    .ok (.run (bits b0 0 6 + 1), rest) := by
  simp only [decodeChunk, h]

theorem decodeChunk_of_rgb (h : chunkKind b0 = .rgb) (r g b : Byte) :
    decodeChunk (b0 :: r :: g :: b :: rest) = .ok (.rgb r g b, rest) := by
  simp only [decodeChunk, h]

theorem decodeChunk_of_rgba (h : chunkKind b0 = .rgba) (r g b a : Byte) :
    decodeChunk (b0 :: r :: g :: b :: a :: rest) = .ok (.rgba r g b a, rest) := by
  simp only [decodeChunk, h]

end

/-! ### Decoding what was encoded -/

/-- 30_encoding.md R88: a field value plus the range's lower bound is that value with the bias removed. -/
theorem unbiased_eq_add_neg (stored : Nat) (bias : Int) : unbiased stored bias = (stored : Int) + -bias :=
  Int.sub_eq_add_neg

theorem decodeChunk_encode_index (idx : Fin 64) (rest : List Byte) :
    decodeChunk (encode (.index idx) ++ rest) = .ok (.index idx, rest) := by
  obtain ⟨hkind, hbits⟩ := indexByte idx
  refine (decodeChunk_of_index rest hkind).trans ?_
  rw [hbits, Fin.ofNat_val_eq_self]

theorem decodeChunk_encode_diff {dr dg db : Int} (hdr : inRange (-2) 1 dr) (hdg : inRange (-2) 1 dg)
    (hdb : inRange (-2) 1 db) (rest : List Byte) :
    decodeChunk (encode (.diff dr dg db) ++ rest) = .ok (.diff dr dg db, rest) := by
  obtain ⟨x, rfl⟩ := inRange_fin 4 hdr rfl
  obtain ⟨y, rfl⟩ := inRange_fin 4 hdg rfl
  obtain ⟨z, rfl⟩ := inRange_fin 4 hdb rfl
  obtain ⟨hkind, hx, hy, hz, -⟩ := diffByte x y z
  refine (decodeChunk_of_diff rest hkind).trans ?_
  rw [hx, hy, hz]
  simp only [unbiased_eq_add_neg]

theorem decodeChunk_encode_luma {dg drg dbg : Int} (hdg : inRange (-32) 31 dg) (hdrg : inRange (-8) 7 drg)
    (hdbg : inRange (-8) 7 dbg) (rest : List Byte) :
    decodeChunk (encode (.luma dg drg dbg) ++ rest) = .ok (.luma dg drg dbg, rest) := by
  obtain ⟨x, rfl⟩ := inRange_fin 64 hdg rfl
  obtain ⟨y, rfl⟩ := inRange_fin 16 hdrg rfl
  obtain ⟨z, rfl⟩ := inRange_fin 16 hdbg rfl
  obtain ⟨hkind, hx, -⟩ := lumaByte0 x
  obtain ⟨hy, hz, -⟩ := lumaByte1 y z
  refine (decodeChunk_of_luma rest hkind _).trans ?_
  rw [hx, hy, hz]
  simp only [unbiased_eq_add_neg]

theorem decodeChunk_encode_run {n : Nat} (hpos : 1 ≤ n) (hmax : n ≤ 62) (rest : List Byte) :
    decodeChunk (encode (.run n) ++ rest) = .ok (.run n, rest) := by
  obtain ⟨m, rfl⟩ := Nat.exists_eq_add_of_le' hpos
  obtain ⟨hkind, hbits, -⟩ := runByte ⟨m, hmax⟩
  refine (decodeChunk_of_run rest hkind).trans ?_
  rw [hbits]

theorem decodeMarker_endMarker (rest : List Byte) :
    decodeMarker (Config.endMarker ++ rest) = .ok (.endMarker, rest) := by
  have hlen : ¬ (Config.endMarker ++ rest).length < 8 := by simp [Config.endMarker]
  exact (if_neg hlen).trans (if_pos rfl)

theorem decodeHeaderBytes_encodeHeader (w h : U32) (c cs : Byte) (rest : List Byte) :
    decodeHeaderBytes (encodeHeader w h c cs ++ rest) = .ok (.header w h c cs, rest) := by
  simp [encodeHeader, decodeHeaderBytes, Config.magic, be32_u32Byte]

/-- Settles O1: each byte's law gives the fields of the operands back. -/
theorem decodeOfEncodeIsTheInstruction : Obligations.DecodeOfEncodeIsTheInstruction := by
  intro i rest hwf
  cases i with
  | index idx => exact decodeChunk_encode_index idx rest
  | diff dr dg db =>
    obtain ⟨hdr, hdg, hdb⟩ := of_decide_eq_true hwf
    exact decodeChunk_encode_diff hdr hdg hdb rest
  | luma dg drg dbg =>
    obtain ⟨hdg, hdrg, hdbg⟩ := of_decide_eq_true hwf
    exact decodeChunk_encode_luma hdg hdrg hdbg rest
  | run n =>
    obtain ⟨hpos, hmax⟩ := of_decide_eq_true hwf
    exact decodeChunk_encode_run hpos hmax rest
  | rgb r g b => exact decodeChunk_of_rgb rest (b0 := 0xFE) rfl r g b
  | rgba r g b a => exact decodeChunk_of_rgba rest (b0 := 0xFF) rfl r g b a
  | endMarker => exact decodeMarker_endMarker rest
  | header w h c cs => exact decodeHeaderBytes_encodeHeader w h c cs rest

/-! ### Encoding what was decoded -/

theorem encode_of_decodeChunk {bytes rest : List Byte} {i : Instr}
    (h : decodeChunk bytes = .ok (i, rest)) : encode i ++ rest = bytes := by
  cases bytes with
  | nil => exact nomatch h
  | cons b0 tail =>
    simp only [decodeChunk] at h
    split at h
    case h_1 hkind => cases h; exact congrArg (· :: rest) (index_of_byte b0 hkind)
    case h_2 hkind => cases h; exact congrArg (· :: rest) (diff_of_byte b0 hkind)
    case h_3 hkind =>
      split at h
      · next b1 _ =>
        cases h
        exact congrArg₂ (· :: · :: rest) (luma_of_byte0 b0 hkind) (luma_of_byte1 b1)
      · exact nomatch h
    case h_4 hkind => cases h; exact congrArg (· :: rest) (run_of_byte b0 hkind).1
    case h_5 hkind =>
      split at h
      · next r g b _ => cases h; exact congrArg (· :: r :: g :: b :: rest) ((tag_of_byte b0).1 hkind).symm
      · exact nomatch h
    case h_6 hkind =>
      split at h
      · next r g b a _ =>
        cases h
        exact congrArg (· :: r :: g :: b :: a :: rest) ((tag_of_byte b0).2 hkind).symm
      · exact nomatch h

theorem encode_of_decodeMarker {bytes rest : List Byte} {i : Instr}
    (h : decodeMarker bytes = .ok (i, rest)) : encode i ++ rest = bytes := by
  unfold decodeMarker at h
  split at h
  · exact nomatch h
  · split at h
    · next hmarker =>
      cases h
      calc Config.endMarker ++ bytes.drop 8
          = bytes.take 8 ++ bytes.drop 8 := by rw [hmarker]
        _ = bytes := List.take_append_drop 8 bytes
    · exact nomatch h

theorem encodeHeader_be32 (w3 w2 w1 w0 h3 h2 h1 h0 c cs : Byte) :
    encodeHeader (be32 w3 w2 w1 w0) (be32 h3 h2 h1 h0) c cs =
      Config.magic ++ [w3, w2, w1, w0, h3, h2, h1, h0, c, cs] := by
  obtain ⟨hw3, hw2, hw1, hw0⟩ := u32Byte_be32 w3 w2 w1 w0
  obtain ⟨hh3, hh2, hh1, hh0⟩ := u32Byte_be32 h3 h2 h1 h0
  simp only [encodeHeader, hw3, hw2, hw1, hw0, hh3, hh2, hh1, hh0]

theorem encode_of_decodeHeaderBytes {bytes rest : List Byte} {i : Instr}
    (h : decodeHeaderBytes bytes = .ok (i, rest)) : encode i ++ rest = bytes := by
  unfold decodeHeaderBytes at h
  split at h
  · split at h
    · next hmagic =>
      cases h
      rw [encode, encodeHeader_be32, ← hmagic]
      rfl
    · exact nomatch h
  · exact nomatch h

/-- Settles O2: position by position; at a chunk the first byte's kind fixes the tag that is written back. -/
theorem encodeOfDecodeIsTheBytes : Obligations.EncodeOfDecodeIsTheBytes := by
  intro p bytes rest i h
  cases p with
  | header =>
    obtain ⟨w, v, c, cs, rfl⟩ := decodeHeaderBytes_ok h
    exact ⟨rfl, rfl, encode_of_decodeHeaderBytes h⟩
  | chunk =>
    obtain ⟨hwf, hpos⟩ := wellFormed_of_decodeChunk h
    exact ⟨hwf, hpos, encode_of_decodeChunk h⟩
  | marker =>
    obtain rfl := decodeMarker_ok h
    exact ⟨rfl, rfl, encode_of_decodeMarker h⟩

/-! ### The first-byte map -/

/-- Settles O4: by the kind that the first byte selects; the operand bytes it asks for are there. -/
theorem noChunkIsIllegal : Obligations.NoChunkIsIllegal := by
  intro b0 bytes hlen
  cases hkind : chunkKind b0 with rw [hkind] at hlen
  | index => exact ⟨_, decodeChunk_of_index bytes hkind, rfl⟩
  | diff => exact ⟨_, decodeChunk_of_diff bytes hkind, rfl⟩
  | run => exact ⟨_, decodeChunk_of_run bytes hkind, rfl⟩
  | luma =>
    match bytes, hlen with
    | b1 :: rest, _ => exact ⟨_, decodeChunk_of_luma rest hkind b1, rfl⟩
    | [], hlen => simp [ChunkKind.length] at hlen
  | rgb =>
    match bytes, hlen with
    | r :: g :: b :: rest, _ => exact ⟨_, decodeChunk_of_rgb rest hkind r g b, rfl⟩
    | [], hlen | [_], hlen | [_, _], hlen => simp [ChunkKind.length] at hlen
  | rgba =>
    match bytes, hlen with
    | r :: g :: b :: a :: rest, _ => exact ⟨_, decodeChunk_of_rgba rest hkind r g b a, rfl⟩
    | [], hlen | [_], hlen | [_, _], hlen | [_, _, _], hlen => simp [ChunkKind.length] at hlen

/-- 30_encoding.md R86, R87: below the two 8-bit tags the two high bits select the kind, 64 values each. -/
theorem chunkKind_of_lt {b0 : Byte} (h : b0.toNat < 254) : chunkKind b0 =
    if b0.toNat < 64 then .index else if b0.toNat < 128 then .diff
    else if b0.toNat < 192 then .luma else .run := by
  have htag : bits b0 6 2 = b0.toNat / 64 := by
    rw [bits, Nat.shiftRight_eq_div_pow]
    omega
  have hrgb : b0 ≠ 0xFE := by rintro rfl; exact absurd h (by decide)
  have hrgba : b0 ≠ 0xFF := by rintro rfl; exact absurd h (by decide)
  rw [chunkKind, if_neg hrgb, if_neg hrgba, htag]
  split
  · rw [if_pos (by omega)]
  · rw [if_neg (by omega), if_pos (by omega)]
  · rw [if_neg (by omega), if_neg (by omega), if_pos (by omega)]
  · next hindex hdiff hluma =>
    have hrun : 192 ≤ b0.toNat := by
      simp only [imp_false] at hindex hdiff hluma
      omega
    rw [if_neg (by omega), if_neg (by omega), if_neg (by omega)]

theorem chunkKind_and_length {b0 : Byte} {kind : ChunkKind} (h : chunkKind b0 = kind) :
    chunkKind b0 = kind ∧ (chunkKind b0).length = kind.length :=
  ⟨h, congrArg ChunkKind.length h⟩

/-- Settles O3: the two 8-bit tags are single bytes, the 2-bit tags are the quarters below them. -/
theorem firstByteSelectsTheChunk : Obligations.FirstByteSelectsTheChunk := by
  intro b0
  refine ⟨fun h => ?rgb, fun h => ?rgba, fun h => ?index, fun h => ?diff, fun h => ?luma, fun h => ?run⟩
  case rgb => obtain rfl : b0 = 0xFE := BitVec.eq_of_toNat_eq h; exact ⟨rfl, rfl⟩
  case rgba => obtain rfl : b0 = 0xFF := BitVec.eq_of_toNat_eq h; exact ⟨rfl, rfl⟩
  all_goals
    apply chunkKind_and_length
    rw [chunkKind_of_lt (by omega)]
  case index => rw [if_pos (by omega)]
  case diff => rw [if_neg (by omega), if_pos (by omega)]
  case luma => rw [if_neg (by omega), if_neg (by omega), if_pos (by omega)]
  case run => rw [if_neg (by omega), if_neg (by omega), if_neg (by omega)]

/-! ### Words of the opcode table -/

/-- A word whose bytes, the low one first, begin with the encoding of an instruction that stands at the word's
position is read as that instruction: the table's own layout (log entry 11) is not tried. -/
theorem decodeTableWord_of_encode {nbits w : Nat} {i : Instr} (hwf : wellFormed i = true)
    (hpos : positionOfWord nbits w = i.position)
    (hbytes : encode i <+: bytesLowFirst i.position.bytes (w % 2 ^ nbits)) :
    decodeTableWord nbits w = some i := by
  obtain ⟨rest, hrest⟩ := hbytes
  have hdecode := decodeOfEncodeIsTheInstruction i rest hwf
  have htable : tableBytes nbits w = encode i ++ rest := by
    simp [tableBytes, hpos, ← hrest, decodes, hdecode]
  simp only [decodeTableWord, hpos, htable, hdecode]

/-- Settles O5: each word's bytes begin with the encoding of the instruction it stands for. -/
theorem wordsOfTheSpecDecode : Obligations.WordsOfTheSpecDecode := by
  and_intros <;>
    exact decodeTableWord_of_encode (by decide) (by decide) (by decide)

end Sys2Proof
end

section
/-! PROOFS. HDR (40_header_codec.md): `decodeHeader` undoes `encodeHeader` where the fields are legal, the
domain of the encoder's header, and HDR's two commands. -/

namespace Sys2Proof.Machine

/-! ### The codec -/

/-- 40_header_codec.md R98, R100: of an encoded header only the checks of the two fields are left. -/
theorem decodeHeader_encodeHeader (w h : U32) (c cs : Byte) (rest : List Byte) :
    decodeHeader (encodeHeader w h c cs ++ rest) =
      if legalFields c cs then some ⟨w, h, c, cs⟩ else none := by
  have hdecode : decode .header (encodeHeader w h c cs ++ rest) = .ok (.header w h c cs, rest) :=
    decodeHeaderBytes_encodeHeader w h c cs rest
  rw [decodeHeader, hdecode]

/-- Settles O6: the bytes give the four fields back, and `legalFields` decides. -/
theorem headerRoundTrip : Obligations.HeaderRoundTrip := by
  intro w h c cs rest
  rw [decodeHeader_encodeHeader, ← legalFields_iff]
  exact ⟨fun hlegal => if_pos hlegal, fun hillegal => if_neg hillegal⟩

/-! ### The header as DEC's start step -/

/-- 42_decoder.md R122: the header is refused for its operand's length or for its fields. -/
theorem execHeader_of_illegal {c cs : Byte} {s : State} (w h : U32)
    (hbad : s.dec.ib.len < 14 ∨ legalFields c cs = false) :
    execHeader w h c cs s = .next { s with dec := raiseDec .format s.dec } :=
  if_pos hbad

/-- Settles O23: a field outside its values fails `legalFields`. -/
theorem illegalHeaderIsFormatError : Obligations.IllegalHeaderIsFormatError := by
  intro w h c cs s hbad
  have hillegal : s.dec.ib.len < 14 ∨ legalFields c cs = false := by
    rw [← Bool.not_eq_true, legalFields_iff, not_and_or]
    exact hbad
  exact ⟨_, execHeader_of_illegal w h hillegal, rfl, rfl, rfl⟩

/-! ### The encoder's domain -/

/-- Settles O33: the bounds of the two dimensions are the same numbers, paired. -/
theorem encoderHeaderDomain : Obligations.EncoderHeaderDomain := by
  intro w h c cs
  simp only [validEncHeader, decide_eq_true_eq, Nat.reducePow, Nat.reduceSub, and_assoc]

/-! ### The commands -/

theorem hostMove_encodeHeader_of_fits {w h c cs : Nat} (s : State)
    (hfits : w < 2 ^ 32 ∧ h < 2 ^ 32 ∧ c < 256 ∧ cs < 256) :
    hostMove (.encodeHeader w h c cs) s = .next { s with reply := some (.bytes
      (encodeHeader (BitVec.ofNat 32 w) (BitVec.ofNat 32 h) (BitVec.ofNat 8 c) (BitVec.ofNat 8 cs))) } :=
  if_pos hfits

theorem hostMove_encodeHeader_of_too_wide {w h c cs : Nat} (s : State)
    (hwide : ¬(w < 2 ^ 32 ∧ h < 2 ^ 32 ∧ c < 256 ∧ cs < 256)) :
    hostMove (.encodeHeader w h c cs) s = .refused .headerFieldTooWide :=
  if_neg hwide

theorem hostMove_decodeHeader_of_some {bytes : List Byte} {hdr : Header} (s : State)
    (hdecode : decodeHeader bytes = some hdr) :
    hostMove (.decodeHeader bytes) s = .next { s with reply := some (.header hdr) } := by
  simp only [hostMove, hostDecodeHeader, hdecode, answer]

theorem hostMove_decodeHeader_of_none {bytes : List Byte} (s : State) (hdecode : decodeHeader bytes = none) :
    hostMove (.decodeHeader bytes) s = .next { s with reply := some (.error .format) } := by
  simp only [hostMove, hostDecodeHeader, hdecode, answer]

/-- Settles O50: the step is the command, and each command has its two answers. -/
theorem headerCommands : Obligations.HeaderCommands := by
  refine ⟨fun s w h c cs hnext => ?encode, fun s bytes hnext => ?decode⟩ <;>
    rw [step_of_hostNext hnext]
  case encode => exact ⟨hostMove_encodeHeader_of_fits s.popped, hostMove_encodeHeader_of_too_wide s.popped⟩
  case decode =>
    exact ⟨fun hdr => hostMove_decodeHeader_of_some s.popped, hostMove_decodeHeader_of_none s.popped⟩

end Sys2Proof.Machine
end

section
/-! PROOFS. The colorspace is opaque (40_header_codec.md R101, 10_state.md R54): each unit does the same whatever
its `hdr.CS` holds. -/

namespace Sys2Proof.Machine

/-! ### DEC -/

/-- DEC with another colorspace. -/
def Dec.withCS (v : Byte) (d : Dec) : Dec := { d with hdr := { d.hdr with CS := v } }

/-- `d'` is `d` with the colorspace `v`; but an error has freed the header register, and then it is `d`
itself (log entry 2). -/
def Dec.sameButCS (v : Byte) (d d' : Dec) : Prop := d' = d.withCS v ∨ d.phase = .error ∧ d' = d

theorem Dec.withCS_self (d : Dec) : d.withCS d.hdr.CS = d := rfl

theorem sameButCS_raiseDec (v : Byte) (e : ErrKind) (d : Dec) :
    (raiseDec e d).sameButCS v (raiseDec e (d.withCS v)) :=
  .inr ⟨rfl, rfl⟩

theorem sameButCS_ite (v : Byte) {c : Prop} [Decidable c] {a b a' b' : Dec} (ha : c → a.sameButCS v a')
    (hb : ¬c → b.sameButCS v b') : (if c then a else b).sameButCS v (if c then a' else b') := by
  split
  · next hc => exact ha hc
  · next hc => exact hb hc

theorem sameButCS_endOfStream (v : Byte) (trailing : Config.TrailingBytes) (d : Dec) :
    (endOfStream trailing d).sameButCS v (endOfStream trailing (d.withCS v)) :=
  sameButCS_ite v (fun _ => sameButCS_raiseDec v .format d) fun _ =>
    sameButCS_ite v (fun _ => sameButCS_raiseDec v .format (advance 8 d)) fun _ => .inl rfl

/-- HEADER is left out: it overwrites the colorspace, and DEC's move never fetches it. -/
theorem exec_withCS (v : Byte) {i : Instr} (hi : i.position ≠ .header) (s : State) :
    ∃ d d', d.sameButCS v d' ∧ exec i s = .next { s with dec := d } ∧
      exec i { s with dec := s.dec.withCS v } = .next { s with dec := d' } := by
  cases i <;> simp only [exec, execIndex, execDiff, execLuma, execRun, execRgb, execRgba, execEndMarker]
  case index | diff => exact ⟨_, _, .inl rfl, rfl, rfl⟩
  case luma | run | rgb | rgba =>
    split
    · next hc => exact ⟨_, _, sameButCS_raiseDec v _ s.dec, rfl, if_pos hc⟩
    · next hc => exact ⟨_, _, .inl rfl, rfl, if_neg hc⟩
  case endMarker => exact ⟨_, _, sameButCS_endOfStream v s.params.trailing s.dec, rfl, rfl⟩
  case header => exact absurd rfl hi

theorem runFetched_withCS (v : Byte) {f : Fetched} {s t : State}
    (hf : ∀ i, f = .instr i → i.position ≠ .header) (h : runFetched f s = .next t) :
    ∃ d', t.dec.sameButCS v d' ∧
      runFetched f { s with dec := s.dec.withCS v } = .next { t with dec := d' } := by
  cases f with
  | instr i =>
    obtain ⟨d, d', hsame, hs, hs'⟩ := exec_withCS v (hf i rfl) s
    cases hs.symm.trans h
    exact ⟨d', hsame, hs'⟩
  | raise e => cases h; exact ⟨_, sameButCS_raiseDec v e s.dec, rfl⟩
  | fault r => exact nomatch h

theorem fetchChunk_not_header {d : Dec} (i : Instr) (h : fetchChunk d = .instr i) : i.position ≠ .header := by
  obtain ⟨-, -, hchunk⟩ := fetchChunk_instr h
  rw [hchunk]
  decide

theorem fetchMarker_not_header {d : Dec} (i : Instr) (h : fetchMarker d = .instr i) : i.position ≠ .header := by
  rw [fetchMarker_instr h]
  decide

/-- The choice of 42_decoder.md R126 and the fetch do not read the colorspace: both are the same by
definition. -/
theorem streamStep_withCS (v : Byte) {s t : State} (h : streamStep s = .next t) :
    ∃ d', t.dec.sameButCS v d' ∧
      streamStep { s with dec := s.dec.withCS v } = .next { t with dec := d' } := by
  rcases streamStep_cases s with ⟨hrun, hs⟩ | ⟨hrun, hn, hs⟩ | ⟨hrun, hn, hs⟩
  · cases hs.symm.trans h
    exact ⟨_, .inl rfl, if_pos hrun⟩
  · obtain ⟨d', hsame, hs'⟩ := runFetched_withCS v fetchChunk_not_header (hs.symm.trans h)
    exact ⟨d', hsame, (if_neg hrun.not_gt).trans ((if_pos hn).trans hs')⟩
  · obtain ⟨d', hsame, hs'⟩ := runFetched_withCS v fetchMarker_not_header (hs.symm.trans h)
    exact ⟨d', hsame, (if_neg hrun.not_gt).trans ((if_neg hn.not_gt).trans hs')⟩

theorem decMove_withCS (v : Byte) {s t : State} (h : decMove s = .next t) :
    ∃ d', t.dec.sameButCS v d' ∧
      decMove { s with dec := s.dec.withCS v } = .next { t with dec := d' } := by
  by_cases hp : s.dec.phase = .stream
  · have hp' : (s.dec.withCS v).phase = .stream := hp
    simp only [decMove, hp, hp'] at h ⊢
    exact streamStep_withCS v h
  · cases (decMove_of_not_stream hp).symm.trans h
    exact ⟨_, .inl rfl, decMove_of_not_stream hp⟩

/-- What `sameButCS` says, as a value of the colorspace register. -/
theorem Dec.sameButCS.exists_withCS {v : Byte} {d d' : Dec} (h : d.sameButCS v d') :
    ∃ v', (d.phase ≠ .error → v' = v) ∧ d' = d.withCS v' := by
  rcases h with rfl | ⟨herr, rfl⟩
  · exact ⟨v, fun _ => rfl, rfl⟩
  · exact ⟨d'.hdr.CS, absurd herr, d'.withCS_self.symm⟩

/-! ### ENC -/

/-- ENC with another colorspace. -/
def Enc.withCS (v : Byte) (e : Enc) : Enc := { e with hdr := { e.hdr with CS := v } }

@[simp] theorem Enc.withCS_prev (v : Byte) (e : Enc) : (e.withCS v).prev = e.prev := rfl
@[simp] theorem Enc.withCS_run (v : Byte) (e : Enc) : (e.withCS v).run = e.run := rfl

theorem flushRun_withCS (v : Byte) (e : Enc) : flushRun (e.withCS v) = (flushRun e).withCS v := by
  unfold flushRun
  rw [apply_ite (Enc.withCS v)]
  rfl

theorem codePixel_withCS (v : Byte) (p : Pixel) (e : Enc) :
    codePixel p (e.withCS v) = (codePixel p e).withCS v := by
  unfold codePixel
  rw [apply_ite (Enc.withCS v)]
  rfl

theorem encPixel_withCS (v : Byte) (p : Pixel) (e : Enc) :
    encPixel p (e.withCS v) = (encPixel p e).withCS v := by
  have hcode : codePixel p (flushRun (e.withCS v)) = (codePixel p (flushRun e)).withCS v := by
    rw [flushRun_withCS, codePixel_withCS]
  simp only [encPixel, hcode, Enc.withCS_prev, Enc.withCS_run]
  split
  · rfl
  · split <;> rfl

theorem encPixelStep_withCS (v : Byte) (p : Pixel) (e : Enc) :
    encPixelStep p (e.withCS v) = (encPixelStep p e).withCS v := by
  simp only [encPixelStep, encPixel_withCS]
  rfl

theorem encFinish_withCS (v : Byte) (e : Enc) : encFinish (e.withCS v) = (encFinish e).withCS v := by
  simp only [encFinish, flushRun_withCS]
  rfl

theorem encMove_withCS (v : Byte) {s t : State} (h : encMove s = .next t) :
    encMove { s with enc := s.enc.withCS v } = .next { t with enc := t.enc.withCS v } := by
  rcases encMove_cases h with ⟨hp, p, hpix, rfl⟩ | ⟨hp, rfl⟩ | ⟨hb, rfl⟩
  · have hp' : (s.enc.withCS v).phase = .pixels := hp
    have hpix' : pixIn (s.enc.withCS v) (s.enc.withCS v).k = some p := hpix
    simp only [encMove, hp', hpix', encPixelStep_withCS]
  · have hp' : (s.enc.withCS v).phase = .finish := hp
    simp only [encMove, hp', encFinish_withCS]
  · exact encMove_of_not_busy hb

/-- Settles O46: neither move reads the colorspace, and only an error of DEC frees its register. -/
theorem colorspaceIsOpaque : Obligations.ColorspaceIsOpaque := by
  refine ⟨fun s t v h => ?_, fun s t v h => encMove_withCS v h⟩
  obtain ⟨d', hsame, hmove⟩ := decMove_withCS v h
  obtain ⟨v', hkept, rfl⟩ := hsame.exists_withCS
  exact ⟨v', hkept, hmove⟩

end Sys2Proof.Machine
end

section
/-! PROOFS. The deltas of 41_encoder.md R111 and the LUMA test of R113: what the wrap of R20 does to them. -/

namespace Sys2Proof.Machine

/-- 00_scope.md R20: `s8` stays in the residue class. -/
theorem s8_emod (x : Int) : s8 x % 256 = x % 256 := by
  rw [s8_eq_ite_emod]
  split <;> omega

theorem s8_inRange (x : Int) : inRange (-128) 127 (s8 x) := by
  rw [s8_eq_ite_emod]
  split <;> constructor <;> omega

/-- 30_encoding.md R89: what `addDelta` gives depends on the delta's residue alone, and that is `p - prev`'s. -/
theorem addDelta_delta (p prev : Byte) : addDelta prev (delta p prev) = p := by
  have hp := p.isLt
  have hmod : delta p prev % 256 = ((p.toNat : Int) - prev.toNat) % 256 := s8_emod _
  have hval : ((addDelta prev (delta p prev)).toNat : Int) = (prev.toNat + delta p prev) % 256 := toNat_wrap8 _
  apply BitVec.eq_of_toNat_eq
  omega

/-- Settles O10: the wrap and the signed wrap cancel. -/
theorem deltaGivesTheChannelBack : Obligations.DeltaGivesTheChannelBack :=
  fun p prev => ⟨addDelta_delta p prev, s8_inRange _⟩

/-- 41_encoder.md R118: no multiple of 256 but 0 takes a difference from outside -8..7 into it, where the
difference lies in -248..247. -/
theorem inRange_s8_iff {x : Int} (hx : inRange (-248) 247 x) : inRange (-8) 7 (s8 x) ↔ inRange (-8) 7 x := by
  obtain ⟨hlow, hhigh⟩ := hx
  rw [s8_eq_ite_emod]
  unfold inRange
  split <;> omega

/-- A delta less a green delta that LUMA holds lies in -159..159 (41_encoder.md R118). -/
theorem inRange_s8_sub_iff {d dg : Int} (hd : inRange (-128) 127 d) (hdg : inRange (-32) 31 dg) :
    inRange (-8) 7 (s8 (d - dg)) ↔ inRange (-8) 7 (d - dg) := by
  obtain ⟨hd1, hd2⟩ := hd
  obtain ⟨hg1, hg2⟩ := hdg
  exact inRange_s8_iff ⟨by omega, by omega⟩

theorem fitsDiff_iff (dr dg db : Int) :
    fitsDiff dr dg db = true ↔ inRange (-2) 1 dr ∧ inRange (-2) 1 dg ∧ inRange (-2) 1 db :=
  decide_eq_true_iff

theorem fitsLuma_iff (dr dg db : Int) :
    fitsLuma dr dg db = true ↔ inRange (-32) 31 dg ∧ inRange (-8) 7 (dr - dg) ∧ inRange (-8) 7 (db - dg) :=
  decide_eq_true_iff

/-- Settles O11: once the green delta fits, each of the two differences passes with the wrap exactly when it
passes without. -/
theorem lumaVerdictIgnoresWrap : Obligations.LumaVerdictIgnoresWrap := by
  intro p prev
  refine (fitsLuma_iff _ _ _).trans (and_congr_right fun hdg => ?_)
  exact and_congr (inRange_s8_sub_iff (s8_inRange _) hdg).symm (inRange_s8_sub_iff (s8_inRange _) hdg).symm

end Sys2Proof.Machine
end

section
/-! PROOFS. ENC's start step (41_encoder.md R102, R103): what an accepted command makes of ENC. -/

namespace Sys2Proof.Machine

theorem hostMove_encStart {s : State} (w h c cs : Nat) (pb : List Byte) (hidle : s.enc.busy = false) :
    hostMove (.encStart w h c cs pb) s =
      .next { s with enc := encStart w h c cs { s.enc with pb := Buffer.ofBytes pb } } := by
  simp [hostMove, hostEncStart, hidle]

theorem encStart_of_valid {w h c cs : Nat} {e : Enc} (hval : validEncHeader w h c cs = true)
    (hlen : e.pb.len = w * h * c) :
    encStart w h c cs e =
      { emit (encodeHeader (BitVec.ofNat 32 w) (BitVec.ofNat 32 h) (BitVec.ofNat 8 c) (BitVec.ofNat 8 cs))
          (initEnc ⟨BitVec.ofNat 32 w, BitVec.ofNat 32 h, BitVec.ofNat 8 c, BitVec.ofNat 8 cs⟩ e) with
        phase := .pixels } := by
  unfold encStart
  rw [if_neg (by simp [hval]), if_neg (not_not.2 hlen)]
  rfl

theorem encStart_of_invalid {w h c cs : Nat} {e : Enc}
    (hbad : validEncHeader w h c cs = false ∨ e.pb.len ≠ w * h * c) :
    encStart w h c cs e = raiseEnc .validation e := by
  unfold encStart
  split
  · rfl
  · next hval => exact if_pos (hbad.resolve_left hval)

/-- Settles O34: the registers are those of `initEnc`, and the header is ENC's first output. -/
theorem encStartEmitsTheHeader : Obligations.EncStartEmitsTheHeader := by
  intro s w h c cs pb hidle hnext hval hlen
  obtain ⟨hw, hh, hc, hcs⟩ := toNat_of_validEncHeader hval
  refine ⟨_, (step_of_hostNext hnext).trans (hostMove_encStart w h c cs pb hidle), rfl, ?_⟩
  rw [encStart_of_valid hval hlen]
  exact ⟨rfl, rfl, hw, hh, hc, hcs, rfl, rfl, rfl, rfl, Cache.slot_cleared, rfl,
    Memory.readBytes_writeBytes (encodeHeader _ _ _ _) [] 0⟩

/-- Settles O35: either fault of the operands enters the error. -/
theorem encStartRejects : Obligations.EncStartRejects := by
  intro s w h c cs pb hidle hnext hbad
  refine ⟨_, (step_of_hostNext hnext).trans (hostMove_encStart w h c cs pb hidle), rfl, ?_⟩
  rw [encStart_of_invalid hbad]
  exact ⟨rfl, rfl⟩

end Sys2Proof.Machine
end

section
/-! PROOFS. The pixel that ENC reads (41_encoder.md R104), and that there is one in every state that meets the
invariant. -/

namespace Sys2Proof.Machine

theorem pixIn_of_rgb {e : Enc} {k : Nat} {r g b : Byte} (hC : e.hdr.C = 3)
    (hrgb : e.pb.read (k * e.hdr.stride) 3 = some [r, g, b]) : pixIn e k = some ⟨r, g, b, 255⟩ := by
  have hne : e.hdr.C ≠ 4 := by rw [hC]; decide
  simp only [pixIn, if_neg hne, hrgb]

theorem pixIn_of_rgba {e : Enc} {k : Nat} {r g b a : Byte} (hC : e.hdr.C = 4)
    (hrgb : e.pb.read (k * e.hdr.stride) 3 = some [r, g, b])
    (ha : e.pb.read (k * e.hdr.stride + 3) 1 = some [a]) : pixIn e k = some ⟨r, g, b, a⟩ := by
  simp only [pixIn, if_pos hC, hrgb, ha]

/-- Settles O36: the bytes of a pixel are a stretch of the operand; the fourth, where there is one, is read
apart. -/
theorem pixInReadsThePixel : Obligations.PixInReadsThePixel := by
  intro e pre post r g b a k hpre
  refine ⟨fun hC hpb => pixIn_of_rgb hC ?_, fun hC hpb => ?_⟩
  · rw [hpb, Header.stride, ← hpre]
    exact Buffer.read_ofBytes pre [r, g, b] post
  · have hbytes : Memory.readBytes e.pb.cells (k * e.hdr.stride) (3 + 1) = some ([r, g, b] ++ [a]) := by
      rw [hpb, Header.stride, ← hpre]
      exact Buffer.read_ofBytes pre [r, g, b, a] post
    obtain ⟨hrgb, ha⟩ := Memory.readBytes_append (xs := [r, g, b]) (ys := [a]) hbytes
    exact pixIn_of_rgba hC hrgb ha

/-- Pixel `k` of an image whose bytes are all there. -/
theorem exists_pixIn_of_complete {e : Enc} {k : Nat} (hpb : e.pb.complete) (hC : e.hdr.C = 3 ∨ e.hdr.C = 4)
    (hlen : e.pb.len = e.T * e.hdr.stride) (hk : k < e.T) : ∃ p, pixIn e k = some p := by
  have hend : k * e.hdr.stride + e.hdr.stride ≤ e.pb.len := by
    rw [hlen, ← Nat.succ_mul]
    exact Nat.mul_le_mul_right _ hk
  have hstride : 3 ≤ e.hdr.stride := by rcases hC with hC | hC <;> simp [Header.stride, hC]
  obtain ⟨rgb, hrgb, hrgbl⟩ := Memory.readBytes_of_covers 3 (a := k * e.hdr.stride) hpb (by omega)
  obtain ⟨r, g, b, rfl⟩ := List.length_eq_three.1 hrgbl
  rcases hC with hC | hC
  · exact ⟨_, pixIn_of_rgb hC hrgb⟩
  · have hstride4 : e.hdr.stride = 4 := by simp [Header.stride, hC]
    obtain ⟨as, ha, hal⟩ := Memory.readBytes_of_covers 1 (a := k * e.hdr.stride + 3) hpb (by omega)
    obtain ⟨a, rfl⟩ := List.length_eq_one_iff.1 hal
    exact ⟨_, pixIn_of_rgba hC hrgb ha⟩

theorem Enc.Inv.exists_pixIn {e : Enc} (h : e.Inv) (hph : e.phase = .pixels) : ∃ p, pixIn e e.k = some p := by
  obtain ⟨-, hpb, hroll, hpix, -⟩ := h
  obtain ⟨-, hval, hlen, -⟩ := hroll (.inl hph)
  obtain ⟨-, -, -, -, hc, -⟩ := of_decide_eq_true hval
  have hC : e.hdr.C = 3 ∨ e.hdr.C = 4 := hc.imp BitVec.eq_of_toNat_eq BitVec.eq_of_toNat_eq
  exact exists_pixIn_of_complete hpb hC hlen (hpix hph).1

end Sys2Proof.Machine
end

section
/-! PROOFS. ENC_PIXEL (41_encoder.md R105 to R116): the run, the choice of the chunk, and the chunk's bytes as
the formats of 30_encoding.md print them. -/

namespace Sys2Proof.Machine

/-! ### The bytes of the chunks -/

/-- 30_encoding.md R82. -/
theorem encode_run {n : Nat} (hpos : 0 < n) (hmax : n ≤ 62) :
    encode (.run n) = [BitVec.ofNat 8 (192 + (n - 1))] := by
  obtain ⟨m, rfl⟩ := Nat.exists_eq_add_of_le' hpos
  obtain ⟨-, -, hbyte⟩ := runByte ⟨m, hmax⟩
  exact congrArg (· :: []) hbyte

/-- 30_encoding.md R80: the three fields side by side are their weighted sum. -/
theorem encode_diff {dr dg db : Int} (hdr : inRange (-2) 1 dr) (hdg : inRange (-2) 1 dg)
    (hdb : inRange (-2) 1 db) :
    encode (.diff dr dg db) = [BitVec.ofInt 8 (64 + 16 * (dr + 2) + 4 * (dg + 2) + (db + 2))] := by
  obtain ⟨x, rfl⟩ := inRange_fin 4 hdr rfl
  obtain ⟨y, rfl⟩ := inRange_fin 4 hdg rfl
  obtain ⟨z, rfl⟩ := inRange_fin 4 hdb rfl
  obtain ⟨-, -, -, -, hbyte⟩ := diffByte x y z
  have hsum : (64 + 16 * ((x : Int) + -2 + 2) + 4 * ((y : Int) + -2 + 2) + ((z : Int) + -2 + 2))
      = ((64 + 16 * x.val + 4 * y.val + z.val : Nat) : Int) := by omega
  rw [hsum, BitVec.ofInt_natCast]
  exact congrArg (· :: []) hbyte

/-- 30_encoding.md R81. -/
theorem encode_luma {dg drg dbg : Int} (hdg : inRange (-32) 31 dg) (hdrg : inRange (-8) 7 drg)
    (hdbg : inRange (-8) 7 dbg) :
    encode (.luma dg drg dbg) =
      [BitVec.ofInt 8 (128 + (dg + 32)), BitVec.ofInt 8 (16 * (drg + 8) + (dbg + 8))] := by
  obtain ⟨x, rfl⟩ := inRange_fin 64 hdg rfl
  obtain ⟨y, rfl⟩ := inRange_fin 16 hdrg rfl
  obtain ⟨z, rfl⟩ := inRange_fin 16 hdbg rfl
  obtain ⟨-, -, hbyte0⟩ := lumaByte0 x
  obtain ⟨-, -, hbyte1⟩ := lumaByte1 y z
  have hsum0 : 128 + ((x : Int) + -32 + 32) = ((128 + x.val : Nat) : Int) := by omega
  have hsum1 : 16 * ((y : Int) + -8 + 8) + ((z : Int) + -8 + 8) = ((16 * y.val + z.val : Nat) : Int) := by omega
  rw [hsum0, hsum1, BitVec.ofInt_natCast, BitVec.ofInt_natCast]
  exact congrArg₂ (· :: · :: []) hbyte0 hbyte1

/-- A flush is `runBytes` of the pending run (41_encoder.md R108). -/
theorem emitted_flushRun_runBytes {e : Enc} (hrun : e.run ≤ 62) : e.emitted (flushRun e) (runBytes e.run) := by
  have hbytes : runBytes e.run = if 0 < e.run then encode (.run e.run) else [] :=
    ite_congr rfl (fun hpos => (encode_run hpos hrun).symm) fun _ => rfl
  rw [hbytes]
  exact emitted_flushRun e

/-! ### The choice of the chunk (41_encoder.md R111 to R115) -/

section
variable {p prev : Pixel}

theorem literalFor_of_alpha_ne (ha : p.a ≠ prev.a) : literalFor p prev = .rgba p.r p.g p.b p.a := if_neg ha

/-- Where alpha stays, the three deltas choose. -/
theorem literalFor_of_alpha_eq (ha : p.a = prev.a) : literalFor p prev =
    if fitsDiff (delta p.r prev.r) (delta p.g prev.g) (delta p.b prev.b) then
      .diff (delta p.r prev.r) (delta p.g prev.g) (delta p.b prev.b)
    else if fitsLuma (delta p.r prev.r) (delta p.g prev.g) (delta p.b prev.b) then
      .luma (delta p.g prev.g) (delta p.r prev.r - delta p.g prev.g) (delta p.b prev.b - delta p.g prev.g)
    else .rgb p.r p.g p.b :=
  if_pos ha

theorem literalFor_ne_rgba (ha : p.a = prev.a) (r g b a : Byte) : literalFor p prev ≠ .rgba r g b a := by
  rw [literalFor_of_alpha_eq ha]
  split
  · nofun
  · split <;> nofun

end

/-! ### A pixel equal to `prev` -/

/-- Settles O38: the first of the three ways of a pixel step. -/
theorem runContinuation : Obligations.RunContinuation := by
  intro e p hp hrun
  rcases encPixel_cases p e with ⟨-, -, hx⟩ | ⟨-, hfull, -⟩ | ⟨hne, -⟩
  · exact hx
  · omega
  · exact absurd hp hne

/-- Settles O39: the second way, whose chunk is the byte 0xFD. -/
theorem runSaturation : Obligations.RunSaturation := by
  intro e p hp hrun
  rcases encPixel_cases p e with ⟨-, hlt, -⟩ | ⟨-, -, hx⟩ | ⟨hne, -⟩
  · omega
  · rw [hx]
    exact ⟨Enc.emitted_congr (emitted_emit [0xFD] e) rfl rfl, rfl, rfl, rfl, ⟨rfl, rfl, rfl, rfl⟩, rfl, rfl⟩
  · exact absurd hp hne

/-! ### A pixel that differs from `prev` -/

section
variable {e : Enc} {p : Pixel}

theorem encPixel_of_ne (hp : p ≠ e.prev) : encPixel p e = { codePixel p (flushRun e) with prev := p } := by
  rcases encPixel_cases p e with ⟨heq, -⟩ | ⟨heq, -⟩ | ⟨-, hx⟩
  · exact absurd heq hp
  · exact absurd heq hp
  · exact hx

theorem encPixel_run_of_ne (hp : p ≠ e.prev) : (encPixel p e).run = 0 := by
  rw [encPixel_of_ne hp]
  simp

/-- After the flush, one chunk: INDEX where the slot holds the pixel (41_encoder.md R109). -/
theorem encPixel_of_slot_eq (hp : p ≠ e.prev) (hrun : e.run ≤ 62) (hslot : Cache.slot e.cache (hash p) = p) :
    (encPixel p e).cache = e.cache ∧
      e.emitted (encPixel p e) (runBytes e.run ++ encode (.index (hash p))) := by
  rw [encPixel_of_ne hp]
  rcases codePixel_cases p (flushRun e) with ⟨-, hemit, hcache⟩ | ⟨hne, -⟩
  · exact ⟨hcache.trans (flushRun_cache e),
      Enc.emitted_congr (Enc.emitted_trans (emitted_flushRun_runBytes hrun) hemit) rfl rfl⟩
  · exact absurd hslot (flushRun_cache e ▸ hne)

/-- After the flush, one chunk: a literal where the slot holds another pixel (41_encoder.md R110). -/
theorem encPixel_of_slot_ne (hp : p ≠ e.prev) (hrun : e.run ≤ 62) (hslot : Cache.slot e.cache (hash p) ≠ p) :
    slotWritten e.cache (encPixel p e).cache p ∧
      e.emitted (encPixel p e) (runBytes e.run ++ encode (literalFor p e.prev)) := by
  rw [encPixel_of_ne hp]
  rcases codePixel_cases p (flushRun e) with ⟨heq, -⟩ | ⟨-, hemit, hwritten⟩
  · exact absurd (flushRun_cache e ▸ heq) hslot
  · rw [flushRun_cache] at hwritten
    rw [flushRun_prev] at hemit
    exact ⟨hwritten, Enc.emitted_congr (Enc.emitted_trans (emitted_flushRun_runBytes hrun) hemit) rfl rfl⟩

end

/-- Settles O40: the registers, then INDEX, then one literal for each branch of `literalFor`. -/
theorem differingPixelChoosesItsChunk : Obligations.DifferingPixelChoosesItsChunk := by
  intro e p hp hrun dr dg db diff luma
  have hdiff : fitsDiff dr dg db = true ↔ diff := fitsDiff_iff dr dg db
  have hluma : fitsLuma dr dg db = true ↔ luma := fitsLuma_iff dr dg db
  refine ⟨rfl, encPixel_run_of_ne hp,
    ⟨encPixel_err p e, encPixel_hdr p e, encPixel_pb p e, encPixel_errors p e⟩, encPixel_k p e,
    encPixel_phase p e, encPixel_of_slot_eq hp hrun, fun hslot => ?_⟩
  obtain ⟨hwritten, hemit⟩ := encPixel_of_slot_ne hp hrun hslot
  refine ⟨hwritten, fun ha => ?rgba, fun ha hd => ?diff, fun ha hd hl => ?luma, fun ha hd hl => ?rgb⟩
  case rgba =>
    rwa [literalFor_of_alpha_ne ha] at hemit
  case diff =>
    rw [literalFor_of_alpha_eq ha, if_pos (hdiff.2 hd)] at hemit
    obtain ⟨hdr, hdg, hdb⟩ := hd
    rwa [encode_diff hdr hdg hdb] at hemit
  case luma =>
    rw [literalFor_of_alpha_eq ha, if_neg (mt hdiff.1 hd), if_pos (hluma.2 hl)] at hemit
    obtain ⟨hdg, hdrg, hdbg⟩ := hl
    rwa [encode_luma hdg hdrg hdbg] at hemit
  case rgb =>
    rwa [literalFor_of_alpha_eq ha, if_neg (mt hdiff.1 hd), if_neg (mt hluma.1 hl)] at hemit

/-- Settles O43: the slot lemma of the invariant, at the new `prev`. -/
theorem prevIsInItsSlot : Obligations.PrevIsInItsSlot :=
  fun _ _ h => slot_encPixel h

/-- Settles O42: both alphas are 255, and RGBA is chosen only where they differ. -/
theorem threeChannelsNeverRgba : Obligations.ThreeChannelsNeverRgba := by
  intro s p hinv hph hC hpix
  obtain ⟨⟨-, -, hroll, -⟩, -⟩ := hinv
  obtain ⟨-, -, -, -, -, -, hprev, -⟩ := hroll (.inl hph)
  have ha : p.a = s.enc.prev.a := (pixIn_alpha hC hpix).trans (hprev hC).symm
  exact ⟨ha, literalFor_ne_rgba ha⟩

end Sys2Proof.Machine
end

section
/-! PROOFS. ENC's own steps (41_encoder.md R105, R117): one pixel, the finish, and the pass that they make. -/

namespace Sys2Proof.Machine

/-! ### One step -/

theorem encMove_of_pixels {s : State} {p : Pixel} (hph : s.enc.phase = .pixels)
    (hpix : pixIn s.enc s.enc.k = some p) : encMove s = .next { s with enc := encPixelStep p s.enc } := by
  simp only [encMove, hph, hpix]

theorem encMove_of_finish {s : State} (hph : s.enc.phase = .finish) :
    encMove s = .next { s with enc := encFinish s.enc } := by
  simp only [encMove, hph]

/-- Settles O37: the step is `encPixelStep`, which is stated field by field there. -/
theorem encStepProcessesOnePixel : Obligations.EncStepProcessesOnePixel :=
  fun s _ hnext hph hpix => (step_of_encNext hnext).trans (encMove_of_pixels (s := s.popped) hph hpix)

theorem emitted_encFinish {e : Enc} (hrun : e.run ≤ 62) :
    e.emitted (encFinish e) (runBytes e.run ++ Config.endMarker) :=
  Enc.emitted_congr (Enc.emitted_trans (emitted_flushRun_runBytes hrun) (emitted_emit Config.endMarker _)) rfl rfl

/-- Settles O41: the flush keeps every register but the run, and the marker follows it. -/
theorem finishWritesTheMarker : Obligations.FinishWritesTheMarker := by
  intro s hnext hph hrun
  refine ⟨_, (step_of_encNext hnext).trans (encMove_of_finish (s := s.popped) hph), rfl, rfl,
    flushRun_run s.enc, ?_, flushRun_k s.enc, flushRun_prev s.enc, flushRun_cache s.enc, emitted_encFinish hrun⟩
  exact ⟨flushRun_err s.enc, flushRun_hdr s.enc, flushRun_pb s.enc, flushRun_errors s.enc⟩

/-! ### Runs of the machine within a bound -/

theorem reachesWithin_zero {s : State} {P : State → Prop} (h : P s) : reachesWithin s 0 P :=
  ⟨0, s, le_rfl, rfl, h⟩

theorem run_succ {s t : State} (j : Nat) (h : step s = .next t) :
    Host.Core.run core (j + 1) s = Host.Core.run core j t := by
  have hcore : core.step s = .next t := h
  simp only [Host.Core.run, hcore]

theorem reachesWithin_succ {s t : State} {k : Nat} {P : State → Prop} (h : step s = .next t)
    (ht : reachesWithin t k P) : reachesWithin s (k + 1) P := by
  obtain ⟨j, u, hj, hrun, hP⟩ := ht
  exact ⟨j + 1, u, Nat.succ_le_succ hj, (run_succ j h).trans hrun, hP⟩

/-! ### The pass -/

/-- ENC moves at every step of the pass: nothing is on the agenda and DEC is in no pass (log entry 3). -/
theorem step_of_quiet {s : State} (hagenda : s.agenda = []) (hdec : s.dec.busy = false) :
    step s = encMove s := by
  rw [step_of_encNext (.inr ⟨hagenda, hdec⟩), popped_of_nil hagenda]

theorem reachesWithin_done_of_finish {s : State} (hagenda : s.agenda = []) (hdec : s.dec.busy = false)
    (hph : s.enc.phase = .finish) : reachesWithin s 1 fun t => t.enc.phase = .done :=
  reachesWithin_succ ((step_of_quiet hagenda hdec).trans (encMove_of_finish hph)) (reachesWithin_zero rfl)

/-- Settles O59, by induction on the pixels left: the last one leads to FINISH, and the finish step to DONE. -/
theorem everyEncPassEnds : Obligations.EveryEncPassEnds := by
  intro s hinv hagenda hdec hph
  induction hleft : s.enc.T - s.enc.k generalizing s with
  | zero =>
    obtain ⟨⟨-, -, -, hpix, -⟩, -⟩ := hinv
    have := (hpix hph).1
    omega
  | succ m ih =>
    have hk : s.enc.k < s.enc.T := by omega
    obtain ⟨p, hp⟩ := hinv.1.exists_pixIn hph
    have hstep := (step_of_quiet hagenda hdec).trans (encMove_of_pixels hph hp)
    have hinv' := stepKeepsTheInvariant s _ hinv hstep
    have hT : (encPixelStep p s.enc).T = s.enc.T := congrArg Header.pixels (encPixel_hdr p s.enc)
    apply reachesWithin_succ hstep
    rcases encPixelStep_phase_cases p hk with ⟨hph', -⟩ | ⟨hph', hlast⟩
    · refine ih _ hinv' hagenda hdec hph' ?_
      show (encPixelStep p s.enc).T - (s.enc.k + 1) = m
      omega
    · obtain rfl : m = 0 := by omega
      exact reachesWithin_done_of_finish hagenda hdec hph'

end Sys2Proof.Machine
end

section
/-! PROOFS. The host's reads of a result at DONE (41_encoder.md R117, 42_decoder.md R137, 40_header_codec.md
R101). -/

namespace Sys2Proof.Machine

theorem hostMove_readOB_of_done {s : State} {bs : List Byte} (hdone : s.enc.phase = .done)
    (hread : Memory.readBytes s.enc.ob 0 s.enc.oc = some bs) :
    hostMove .readOB s = .next { s with reply := some (.bytes bs) } := by
  simp only [hostMove, hostReadOB, if_pos hdone, hread, answer]

theorem hostMove_readPO_of_done {s : State} {bs : List Byte} (hdone : s.dec.phase = .done)
    (hread : Memory.readBytes s.dec.po 0 (s.dec.T * s.dec.hdr.stride) = some bs) :
    hostMove .readPO s = .next { s with reply := some (.bytes bs) } := by
  simp only [hostMove, hostReadPO, if_pos hdone, hread, answer]

theorem step_readAccessor_of_done {s : State} {f : Accessor} (hnext : s.hostNext (.readAccessor f))
    (hdone : s.dec.phase = .done) :
    step s = .next { s.popped with reply := some (.field (s.dec.hdr.field f)) } :=
  (step_of_hostNext hnext).trans (if_pos hdone)

/-- At DONE every byte counted in `oc` is there. -/
theorem Enc.Inv.exists_output {e : Enc} (h : e.Inv) (hdone : e.phase = .done) :
    ∃ bs, Memory.readBytes e.ob 0 e.oc = some bs := by
  obtain ⟨-, -, hroll, -⟩ := h
  obtain ⟨-, -, -, hcov, -⟩ := hroll (.inr (.inr hdone))
  obtain ⟨bs, hread, -⟩ := Memory.readBytes_of_covers e.oc hcov (Nat.zero_add _).le
  exact ⟨bs, hread⟩

/-- At DONE every byte of every pixel is there. -/
theorem Dec.Inv.exists_output {d : Dec} (h : d.Inv) (hdone : d.phase = .done) :
    ∃ bs, Memory.readBytes d.po 0 (d.T * d.hdr.stride) = some bs := by
  obtain ⟨-, -, hroll, hend⟩ := h
  obtain ⟨-, -, -, -, -, -, -, hcov⟩ := hroll (.inr hdone)
  rw [(hend hdone).1] at hcov
  obtain ⟨bs, hread, -⟩ := Memory.readBytes_of_covers (d.T * d.hdr.stride) hcov (Nat.zero_add _).le
  exact ⟨bs, hread⟩

/-- Settles O49: the outputs are complete at DONE, and the accessors need no more than the phase. -/
theorem readsAtDoneGiveTheResult : Obligations.ReadsAtDoneGiveTheResult := by
  rintro s ⟨henc, hdec, -⟩
  refine ⟨fun hnext hdone => ?ob, fun hnext hdone => ?po, step_readAccessor_of_done, step_readAccessor_of_done,
    step_readAccessor_of_done, step_readAccessor_of_done⟩
  case ob =>
    obtain ⟨bs, hread⟩ := henc.exists_output hdone
    exact ⟨bs, Memory.length_of_readBytes hread, hread,
      (step_of_hostNext hnext).trans (hostMove_readOB_of_done (s := s.popped) hdone hread)⟩
  case po =>
    obtain ⟨bs, hread⟩ := hdec.exists_output hdone
    have hlen := Memory.length_of_readBytes hread
    exact ⟨bs, hlen, hlen.symm ▸ hread,
      (step_of_hostNext hnext).trans (hostMove_readPO_of_done (s := s.popped) hdone hread)⟩

end Sys2Proof.Machine
end

section
/-! PROOFS. What the machine refuses (41_encoder.md R103, 42_decoder.md R123, 60_exceptions.md R152): three
commands, and no unit's own move. -/

namespace Sys2Proof.Machine

/-! ### The units' own moves -/

theorem runFetched_ne_refused (f : Fetched) (s : State) (r : Refusal) : runFetched f s ≠ .refused r := by
  rcases runFetched_cases f s with ⟨i, -, hf⟩ | ⟨e, -, hf⟩ | ⟨r', -, hf⟩ <;> rw [hf]
  · obtain ⟨d, hd⟩ := exec_next i s
    rw [hd]
    nofun
  · nofun
  · nofun

theorem decMove_ne_refused (s : State) (r : Refusal) : decMove s ≠ .refused r := by
  by_cases hp : s.dec.phase = .stream
  · simp only [decMove, hp]
    rcases streamStep_cases s with ⟨-, hs⟩ | ⟨-, -, hs⟩ | ⟨-, -, hs⟩ <;> rw [hs]
    · nofun
    · exact runFetched_ne_refused _ s r
    · exact runFetched_ne_refused _ s r
  · rw [decMove_of_not_stream hp]
    nofun

theorem encMove_ne_refused (s : State) (r : Refusal) : encMove s ≠ .refused r := by
  unfold encMove
  split
  · split <;> nofun
  all_goals nofun

/-! ### The host's commands -/

theorem hostEncStart_refused_iff (s : State) {r : Refusal} (w h c cs : Nat) (pb : List Byte) :
    hostEncStart w h c cs pb s = .refused r ↔
      (s.enc.phase = .pixels ∨ s.enc.phase = .finish) ∧ r = .startWhileBusy .enc := by
  rw [← busy_enc_iff, hostEncStart]
  split
  · next hbusy => simp [hbusy, eq_comm]
  · next hidle => simp [hidle]

theorem hostDecStart_refused_iff (s : State) {r : Refusal} (ib : List Byte) :
    hostDecStart ib s = .refused r ↔ s.dec.phase = .stream ∧ r = .startWhileBusy .dec := by
  rw [← busy_dec_iff, hostDecStart]
  split
  · next hbusy => simp [hbusy, eq_comm]
  · next hidle => simp [hidle, runFetched_ne_refused]

theorem hostEncodeHeader_refused_iff (s : State) {r : Refusal} (w h c cs : Nat) :
    hostEncodeHeader w h c cs s = .refused r ↔
      ¬(w < 2 ^ 32 ∧ h < 2 ^ 32 ∧ c < 256 ∧ cs < 256) ∧ r = .headerFieldTooWide := by
  rw [hostEncodeHeader]
  split
  · next hfits => exact ⟨nofun, fun hwide => absurd hfits hwide.1⟩
  · next hwide => exact ⟨fun heq => ⟨hwide, by cases heq; rfl⟩, fun hr => by rw [hr.2]⟩

/-- Every other command answers, or reads a byte that does not exist. -/
theorem refusable_of_hostMove_refused {s : State} {c : Command} {r : Refusal} (h : hostMove c s = .refused r) :
    (∃ w v ch cs pb, c = .encStart w v ch cs pb) ∨ (∃ ib, c = .decStart ib) ∨
      ∃ w v ch cs, c = .encodeHeader w v ch cs := by
  cases c with
  | encStart w v ch cs pb => exact .inl ⟨w, v, ch, cs, pb, rfl⟩
  | decStart ib => exact .inr (.inl ⟨ib, rfl⟩)
  | encodeHeader w v ch cs => exact .inr (.inr ⟨w, v, ch, cs, rfl⟩)
  | decodeHeader bytes =>
    simp only [hostMove, hostDecodeHeader] at h
    split at h <;> exact nomatch h
  | readPhase u => cases u <;> exact nomatch h
  | readErr u => cases u <;> exact nomatch h
  | readOB =>
    simp only [hostMove, hostReadOB] at h
    split at h
    · split at h <;> exact nomatch h
    · exact nomatch h
  | readAccessor f =>
    simp only [hostMove, hostReadAccessor] at h
    split at h <;> exact nomatch h
  | readPO =>
    simp only [hostMove, hostReadPO] at h
    split at h
    · split at h <;> exact nomatch h
    · exact nomatch h

/-- A refused step is a refused command: no unit's own move is refused. -/
theorem hostMove_refused_of_step {s : State} {r : Refusal} (h : step s = .refused r) :
    ∃ c, s.hostNext c ∧ hostMove c s.popped = .refused r := by
  rcases step_cases s with ⟨c, hc, hs⟩ | ⟨-, hs⟩ | ⟨-, hs⟩
  · exact ⟨c, hc, hs.symm.trans h⟩
  · exact absurd (hs.symm.trans h) (encMove_ne_refused _ r)
  · exact absurd (hs.symm.trans h) (decMove_ne_refused _ r)

/-- Settles O55: the refused command is one of three, and each of them is refused for its own cause. -/
theorem exactlyTheseMovesAreRefused : Obligations.ExactlyTheseMovesAreRefused := by
  intro s r
  constructor
  · intro h
    obtain ⟨c, hnext, hmove⟩ := hostMove_refused_of_step h
    rcases refusable_of_hostMove_refused hmove with ⟨w, v, ch, cs, pb, rfl⟩ | ⟨ib, rfl⟩ | ⟨w, v, ch, cs, rfl⟩
    · exact .inl ⟨w, v, ch, cs, pb, hnext, (hostEncStart_refused_iff s.popped w v ch cs pb).1 hmove⟩
    · exact .inr (.inl ⟨ib, hnext, (hostDecStart_refused_iff s.popped ib).1 hmove⟩)
    · exact .inr (.inr ⟨w, v, ch, cs, hnext, (hostEncodeHeader_refused_iff s.popped w v ch cs).1 hmove⟩)
  · rintro (⟨w, v, ch, cs, pb, hnext, hwhy⟩ | ⟨ib, hnext, hwhy⟩ | ⟨w, v, ch, cs, hnext, hwhy⟩) <;>
      rw [step_of_hostNext hnext]
    · exact (hostEncStart_refused_iff s.popped w v ch cs pb).2 hwhy
    · exact (hostDecStart_refused_iff s.popped ib).2 hwhy
    · exact (hostEncodeHeader_refused_iff s.popped w v ch cs).2 hwhy

end Sys2Proof.Machine
end

section
/-! PROOFS. What each chunk makes of DEC (42_decoder.md R128 to R133): an equation per instruction and case, and
the statements that these equations settle. -/

namespace Sys2Proof.Machine

/-! ### Where the operands are there -/

/-- 30_encoding.md R89: a channel plus a delta, read as a number. -/
theorem toNat_addDelta (prev : Byte) (d : Int) : ((addDelta prev d).toNat : Int) = (prev.toNat + d) % 256 :=
  toNat_wrap8 _

theorem exec_luma_of_fits {s : State} (dg drg dbg : Int) (hfits : s.dec.pos + 2 ≤ s.dec.N) :
    exec (.luma dg drg dbg) s = .next
      { s with dec := newPixel (applyDeltas s.dec.prev (drg + dg) dg (dbg + dg)) (advance 2 s.dec) } :=
  if_neg hfits.not_gt

theorem exec_rgb_of_fits {s : State} (r g b : Byte) (hfits : s.dec.pos + 4 ≤ s.dec.N) :
    exec (.rgb r g b) s = .next { s with dec := newPixel ⟨r, g, b, s.dec.prev.a⟩ (advance 4 s.dec) } :=
  if_neg hfits.not_gt

theorem exec_rgba_of_fits {s : State} (r g b a : Byte) (hfits : s.dec.pos + 5 ≤ s.dec.N) :
    exec (.rgba r g b a) s = .next { s with dec := newPixel ⟨r, g, b, a⟩ (advance 5 s.dec) } :=
  if_neg hfits.not_gt

theorem exec_run_of_fits {s : State} {n : Nat} (hfits : s.dec.n + n ≤ s.dec.T) :
    exec (.run n) s = .next { s with dec := { advance 1 s.dec with run := n } } :=
  if_neg hfits.not_gt

/-- Settles O12: the output is `pixOut`'s, and the cursor and `prev` are set before it. -/
theorem indexOutputsTheSlot : Obligations.IndexOutputsTheSlot :=
  fun _ _ => ⟨_, rfl, rfl, ⟨rfl, rfl, rfl, rfl, rfl, rfl⟩, rfl, rfl, rfl, rfl, pixelOut_pixOut _ _⟩

/-- Settles O13: each channel is `addDelta`'s, and the rest is the new-pixel update. -/
theorem diffAddsItsDeltas : Obligations.DiffAddsItsDeltas :=
  fun dr dg db s => ⟨_, applyDeltas s.dec.prev dr dg db, rfl, rfl, toNat_addDelta _ _, toNat_addDelta _ _,
    toNat_addDelta _ _, rfl, newPixelDone_newPixel _ 1 _⟩

/-- Settles O14: as DIFF, with the red and blue deltas taken relative to the green one. -/
theorem lumaAddsItsDeltas : Obligations.LumaAddsItsDeltas :=
  fun dg drg dbg s hfits => ⟨_, applyDeltas s.dec.prev (drg + dg) dg (dbg + dg),
    exec_luma_of_fits dg drg dbg hfits, rfl, toNat_addDelta _ _, toNat_addDelta _ _, toNat_addDelta _ _, rfl,
    newPixelDone_newPixel _ 2 _⟩

/-- Settles O15: the new-pixel update of the pixel with `prev`'s alpha. -/
theorem rgbInheritsAlpha : Obligations.RgbInheritsAlpha :=
  fun r g b _ hfits => ⟨_, exec_rgb_of_fits r g b hfits, rfl, newPixelDone_newPixel _ 4 _⟩

/-- Settles O16: the new-pixel update of the four channels. -/
theorem rgbaGivesAllChannels : Obligations.RgbaGivesAllChannels :=
  fun r g b a _ hfits => ⟨_, exec_rgba_of_fits r g b a hfits, rfl, newPixelDone_newPixel _ 5 _⟩

/-- Settles O17: only the cursor and the run register are written. -/
theorem runLeavesRepeatsPending : Obligations.RunLeavesRepeatsPending :=
  fun _ _ hfits => ⟨_, exec_run_of_fits hfits, rfl, ⟨rfl, rfl, rfl, rfl, rfl, rfl⟩, rfl, rfl, rfl, rfl, rfl,
    fun _ => rfl⟩

/-! ### Where an error is raised -/

/-- 60_exceptions.md R149: error entry stops DEC with the kind, and touches nothing else. -/
theorem stopped_of_raiseDec {o : Host.Outcome State Fault Refusal} {s : State} {e : ErrKind} {d : Dec}
    (h : o = .next { s with dec := raiseDec e d }) : ∃ t, o = .next t ∧ onlyDec s t ∧ t.dec.stopped e :=
  ⟨_, h, rfl, rfl, rfl⟩

theorem exec_of_cutOff {i : Instr} {s : State} (hchunk : i.position = .chunk) (hsize : 1 < i.size)
    (hcut : s.dec.N < s.dec.pos + i.size) : exec i s = .next { s with dec := raiseDec .format s.dec } := by
  cases i with
  | luma _ _ _ => exact if_pos hcut
  | rgb _ _ _ => exact if_pos hcut
  | rgba _ _ _ _ => exact if_pos hcut
  | index _ => exact absurd hsize (lt_irrefl 1)
  | diff _ _ _ => exact absurd hsize (lt_irrefl 1)
  | run _ => exact absurd hsize (lt_irrefl 1)
  | endMarker => exact nomatch hchunk
  | header _ _ _ _ => exact nomatch hchunk

/-- Settles O20: the three chunks of more than one byte check their length. -/
theorem cutOffChunkIsFormatError : Obligations.CutOffChunkIsFormatError :=
  fun _ _ hchunk hsize hcut => stopped_of_raiseDec (exec_of_cutOff hchunk hsize hcut)

/-- Settles O21: the first branch of RUN. -/
theorem runOvershootIsPixelCountMismatch : Obligations.RunOvershootIsPixelCountMismatch :=
  fun _ _ hover => stopped_of_raiseDec (if_pos hover)

end Sys2Proof.Machine
end

section
/-! PROOFS. The end marker (42_decoder.md R136) and the header (R122) as DEC runs them. -/

namespace Sys2Proof.Machine

/-! ### The end check -/

theorem endOfStream_of_ends {trailing : Config.TrailingBytes} {d : Dec} (hpos : d.pos + 8 ≤ d.N)
    (hend : d.pos + 8 = d.N ∨ trailing = .ignore) :
    endOfStream trailing d = { advance 8 d with phase := .done } := by
  have hok : ¬(d.pos + 8 ≠ d.N ∧ trailing = .reject) := by
    rintro ⟨hne, rfl⟩
    exact hend.elim hne nofun
  exact (if_neg hpos.not_gt).trans (if_neg hok)

theorem exists_endOfStream_of_bad {trailing : Config.TrailingBytes} {d : Dec}
    (hbad : d.N < d.pos + 8 ∨ d.pos + 8 ≠ d.N ∧ trailing = .reject) :
    ∃ d₀, endOfStream trailing d = raiseDec .format d₀ := by
  unfold endOfStream
  split
  · exact ⟨d, rfl⟩
  · next hpos => exact ⟨advance 8 d, if_pos (hbad.resolve_left hpos)⟩

/-- Settles O18: the phase and the cursor are all that the end check writes. -/
theorem endMarkerEndsThePass : Obligations.EndMarkerEndsThePass := by
  intro s hpos hend
  refine ⟨_, rfl, rfl, ?_⟩
  rw [endOfStream_of_ends hpos hend]
  exact ⟨rfl, rfl, rfl, rfl, rfl, rfl, rfl, rfl, rfl, rfl, rfl, fun _ => rfl⟩

/-- Settles O22: in both cases the end check enters the error. -/
theorem badEndIsFormatError : Obligations.BadEndIsFormatError := by
  intro s hbad
  obtain ⟨d₀, hraise⟩ := exists_endOfStream_of_bad hbad
  exact stopped_of_raiseDec (d := d₀) (by rw [← hraise]; rfl)

/-! ### The header -/

theorem execHeader_of_legal {c cs : Byte} {s : State} (w h : U32) (hlen : 14 ≤ s.dec.ib.len)
    (hlegal : legalFields c cs = true) :
    execHeader w h c cs s = .next { s with dec := initDec ⟨w, h, c, cs⟩ s.dec } := by
  have hok : ¬(s.dec.ib.len < 14 ∨ legalFields c cs = false) :=
    not_or.2 ⟨hlen.not_gt, by rw [hlegal]; nofun⟩
  exact if_neg hok

/-- Settles O19: the registers are those of `initDec`. -/
theorem headerStartsThePass : Obligations.HeaderStartsThePass :=
  fun w h c cs _ hlen hc hcs =>
    ⟨_, execHeader_of_legal w h hlen ((legalFields_iff c cs).2 ⟨hc, hcs⟩), rfl, rfl, rfl, rfl, rfl, rfl, rfl,
      rfl, rfl, Cache.slot_cleared, rfl, rfl, fun _ => rfl⟩

/-! ### What bytes give to a fetch -/

theorem fetched_of_decode {p : Position} {bytes rest : List Byte} {i : Instr}
    (h : decode p bytes = .ok (i, rest)) : fetched p bytes = .instr i := by
  rw [fetched, h]

theorem fetched_of_error {p : Position} {bytes : List Byte} {e : DecodeError} (h : decode p bytes = .error e) :
    fetched p bytes = .raise (errorOf e) := by
  rw [fetched, h]

theorem fetched_encode {i : Instr} (hwf : wellFormed i = true) : fetched i.position (encode i) = .instr i :=
  fetched_of_decode (List.append_nil (encode i) ▸ decodeOfEncodeIsTheInstruction i [] hwf)

/-! ### The start command -/

/-- 42_decoder.md R122, R123: outside a pass the command hands the operand over, and DEC runs what it fetches
from the first 14 bytes. -/
theorem step_decStart {s : State} {bytes : List Byte} (hidle : s.dec.busy = false)
    (hnext : s.hostNext (.decStart bytes)) : step s = runFetched (fetched .header (bytes.take 14))
      { s.popped with dec := { s.dec with ib := Buffer.ofBytes bytes } } := by
  rw [step_of_hostNext hnext]
  simp only [hostMove, hostDecStart, State.popped_dec, hidle, Bool.false_eq_true, if_false,
    fetchHeader_ofBytes]

/-- The header is the first 14 bytes. -/
theorem take_encodeHeader (w h : U32) (c cs : Byte) (rest : List Byte) :
    (encodeHeader w h c cs ++ rest).take 14 = encodeHeader w h c cs := rfl

/-- Settles O26: the first 14 bytes are the header's, and they decode to it. -/
theorem stepRunsTheHeader : Obligations.StepRunsTheHeader := by
  intro s w h c cs rest hidle hnext
  have hfetch : fetched .header ((encode (.header w h c cs) ++ rest).take 14) = .instr (.header w h c cs) :=
    fetched_encode (i := .header w h c cs) rfl
  rw [step_decStart hidle hnext, hfetch]
  rfl

theorem errorOf_of_decodeHeaderBytes {bytes : List Byte} {e : DecodeError}
    (h : decodeHeaderBytes bytes = .error e) : errorOf e = .format := by
  unfold decodeHeaderBytes at h
  split at h
  · split at h
    · exact nomatch h
    · cases h; rfl
  · cases h; rfl

/-- Bytes at the header's position begin with an encoded header, or raise FormatError (40_header_codec.md
R98). -/
theorem decode_header_cases (bytes : List Byte) :
    (∃ w h c cs rest, bytes = encodeHeader w h c cs ++ rest) ∨
    (∃ e, decode .header bytes = .error e ∧ errorOf e = .format) := by
  cases hdecode : decode .header bytes with
  | ok r =>
    obtain ⟨i, rest⟩ := r
    obtain ⟨w, h, c, cs, rfl⟩ := decodeHeaderBytes_ok hdecode
    exact .inl ⟨w, h, c, cs, rest, (encode_of_decodeHeaderBytes hdecode).symm⟩
  | error e => exact .inr ⟨e, rfl, errorOf_of_decodeHeaderBytes hdecode⟩

/-- The same of the first 14 bytes, which are all that the start command reads. -/
theorem fetched_header_cases (bytes : List Byte) :
    (∃ w h c cs rest, bytes = encodeHeader w h c cs ++ rest) ∨
    (fetched .header (bytes.take 14) = .raise .format ∧ decodeHeader bytes = none) := by
  rcases decode_header_cases (bytes.take 14) with ⟨w, h, c, cs, rest, htake⟩ | ⟨e, htake, hformat⟩
  · refine .inl ⟨w, h, c, cs, rest ++ bytes.drop 14, ?_⟩
    rw [← List.append_assoc, ← htake, List.take_append_drop]
  · refine .inr ⟨(fetched_of_error htake).trans (congrArg Fetched.raise hformat), ?_⟩
    rcases decode_header_cases bytes with ⟨w, h, c, cs, rest, rfl⟩ | ⟨e', hbytes, -⟩
    · rw [take_encodeHeader, ← List.append_nil (encodeHeader w h c cs)] at htake
      exact nomatch htake.symm.trans (decodeHeaderBytes_encodeHeader w h c cs [])
    · rw [decodeHeader, hbytes]

/-- Settles O31: an encoded header runs, and its fields decide on both sides; anything else raises on both. -/
theorem decStartFollowsDecodeHeader : Obligations.DecStartFollowsDecodeHeader := by
  intro s bytes hidle hnext
  rcases fetched_header_cases bytes with ⟨w, h, c, cs, rest, rfl⟩ | ⟨hraise, hnone⟩
  · have hstep := stepRunsTheHeader s w h c cs rest hidle hnext
    rw [decodeHeader_encodeHeader]
    cases hlegal : legalFields c cs with
    | true =>
      have hlen : 14 ≤ (encodeHeader w h c cs ++ rest).length := Nat.le_add_left 14 _
      exact ⟨_, hstep.trans (execHeader_of_legal w h hlen hlegal), rfl, rfl, rfl, rfl, rfl, rfl, rfl, rfl, rfl⟩
    | false => exact ⟨_, hstep.trans (execHeader_of_illegal w h (.inr hlegal)), rfl, rfl, rfl, rfl⟩
  · have hstep := step_decStart hidle hnext
    rw [hraise] at hstep
    rw [hnone]
    exact ⟨_, hstep, rfl, rfl, rfl, rfl⟩

end Sys2Proof.Machine
end

section
/-! PROOFS. What DEC's step does at the cursor (42_decoder.md R126, R127, R134, R136): a pending repeat, the chunk
or the marker that stands there, or the error of what does not. -/

namespace Sys2Proof.Machine

/-! ### The choice of R126 -/

theorem streamStep_of_pending {s : State} (hrun : 0 < s.dec.run) :
    streamStep s = .next { s with dec := repeatPixel s.dec } :=
  if_pos hrun

theorem streamStep_of_owed {s : State} (hrun : s.dec.run = 0) (hn : s.dec.n < s.dec.T) :
    streamStep s = runFetched (fetchChunk s.dec) s :=
  (if_neg hrun.not_gt).trans (if_pos hn)

theorem streamStep_of_complete {s : State} (hrun : s.dec.run = 0) (hn : s.dec.T ≤ s.dec.n) :
    streamStep s = runFetched (fetchMarker s.dec) s :=
  (if_neg hrun.not_gt).trans (if_neg hn.not_gt)

theorem step_of_owed {s : State} (hnext : s.decNext) (hph : s.dec.phase = .stream) (hrun : s.dec.run = 0)
    (hn : s.dec.n < s.dec.T) : step s = runFetched (fetchChunk s.dec) s.popped :=
  (step_of_stream hnext hph).trans (streamStep_of_owed (s := s.popped) hrun hn)

theorem step_of_complete {s : State} (hnext : s.decNext) (hph : s.dec.phase = .stream) (hrun : s.dec.run = 0)
    (hn : s.dec.T ≤ s.dec.n) : step s = runFetched (fetchMarker s.dec) s.popped :=
  (step_of_stream hnext hph).trans (streamStep_of_complete (s := s.popped) hrun hn)

/-- Settles O27: a repeat is one output of `prev`. -/
theorem repeatWritesPrev : Obligations.RepeatWritesPrev :=
  fun s hnext hph hrun =>
    ⟨_, (step_of_stream hnext hph).trans (streamStep_of_pending (s := s.popped) hrun), rfl,
      ⟨rfl, rfl, rfl, rfl, rfl, rfl⟩, rfl, rfl, rfl, rfl, pixelOut_pixOut s.dec.prev s.dec⟩

/-! ### A chunk at the cursor -/

/-- 30_encoding.md R86, R93: a chunk is as long as its first byte says. -/
theorem size_of_decodeChunk {b0 : Byte} {tail rest : List Byte} {i : Instr}
    (h : decodeChunk (b0 :: tail) = .ok (i, rest)) : (chunkKind b0).length = i.size := by
  simp only [decodeChunk] at h
  split at h
  case h_1 hkind | h_2 hkind | h_4 hkind => cases h; rw [hkind]; rfl
  case h_3 hkind | h_5 hkind | h_6 hkind =>
    split at h
    · cases h; rw [hkind]; rfl
    · exact nomatch h

/-- 42_decoder.md R126: the first byte is read, then as many as it asks for. -/
theorem fetchChunk_of_encode {d : Dec} {i : Instr} (hwf : wellFormed i = true) (hchunk : i.position = .chunk)
    (hfits : d.pos + i.size ≤ d.N) (hread : d.ib.read d.pos i.size = some (encode i)) :
    fetchChunk d = .instr i := by
  have hsize := (size_of_chunk hchunk).1
  have hlen : 0 < (encode i).length := (length_encode i).symm ▸ hsize
  obtain ⟨b0, tail, hbytes⟩ := List.exists_cons_of_length_pos hlen
  have hdecode : decode i.position (encode i ++ []) = .ok (i, []) := decodeOfEncodeIsTheInstruction i [] hwf
  rw [List.append_nil, hbytes, hchunk] at hdecode
  have hfirst : d.ib.read d.pos 1 = some [b0] := by
    rw [hbytes, ← Nat.sub_add_cancel hsize] at hread
    exact Memory.readBytes_one hread
  have hmin : min (chunkKind b0).length (d.N - d.pos) = i.size := by
    rw [size_of_decodeChunk hdecode]
    omega
  have hpos : d.pos ≠ d.N := by omega
  simp only [fetchChunk, if_neg hpos, hfirst, hmin, hread]
  rw [hbytes]
  exact fetched_of_decode hdecode

/-- Settles O24: the fetch gives the chunk. -/
theorem stepRunsTheChunk : Obligations.StepRunsTheChunk := by
  intro s i hnext hph hrun hn hwf hchunk hfits hread
  rw [step_of_owed hnext hph hrun hn, fetchChunk_of_encode hwf hchunk hfits hread]
  rfl

/-- Settles O28: no bytes decode to no chunk. -/
theorem exhaustedStreamIsTruncated : Obligations.ExhaustedStreamIsTruncated := by
  intro s hnext hph hrun hn hpos
  have hfetch : fetchChunk s.dec = .raise .truncatedStream := if_pos hpos
  have hstep : step s = .next { s.popped with dec := raiseDec .truncatedStream s.dec } := by
    rw [step_of_owed hnext hph hrun hn, hfetch]
    rfl
  exact stopped_of_raiseDec hstep

/-! ### The marker's position -/

/-- Settles O25: the fetch gives the marker. -/
theorem stepRunsTheEndMarker : Obligations.StepRunsTheEndMarker := by
  intro s hnext hph hrun hn hfits hread
  have hmin : min 8 (s.dec.N - s.dec.pos) = 8 := by omega
  have hfetch : fetchMarker s.dec = .instr .endMarker := by
    rw [fetchMarker, hmin, hread]
    exact fetched_encode (i := .endMarker) rfl
  rw [step_of_complete hnext hph hrun hn, hfetch]
  rfl

/-- 42_decoder.md R136: fewer than 8 bytes, or 8 others, raise FormatError. -/
theorem fetched_marker_of_ne {bytes : List Byte} (hlen : bytes.length ≤ 8) (hne : bytes ≠ Config.endMarker) :
    fetched .marker bytes = .raise .format := by
  by_cases hshort : bytes.length < 8
  · exact fetched_of_error (e := .shortMarker) (if_pos hshort)
  · have htake : bytes.take 8 ≠ Config.endMarker := by rwa [List.take_of_length_le hlen]
    exact fetched_of_error (e := .badMarker) ((if_neg hshort).trans (if_neg htake))

/-- The bytes left at the marker's position, 8 at most: an operand handed over holds them all. -/
theorem exists_fetchMarker_of_complete {d : Dec} (hib : d.ib.complete) (hN : d.N = d.ib.len)
    (hpos : d.pos ≤ d.N) :
    ∃ bytes, d.ib.read d.pos (min 8 (d.N - d.pos)) = some bytes ∧ fetchMarker d = fetched .marker bytes := by
  obtain ⟨bytes, hread, -⟩ :=
    Memory.readBytes_of_covers (min 8 (d.N - d.pos)) (a := d.pos) hib (by omega)
  have hread : d.ib.read d.pos (min 8 (d.N - d.pos)) = some bytes := hread
  exact ⟨bytes, hread, by rw [fetchMarker, hread]⟩

theorem fetchMarker_of_bad {d : Dec} (hib : d.ib.complete) (hN : d.N = d.ib.len) (hpos : d.pos ≤ d.N)
    (hbad : d.N < d.pos + 8 ∨ d.ib.read d.pos 8 ≠ some Config.endMarker) :
    fetchMarker d = .raise .format := by
  obtain ⟨bytes, hread, hfetch⟩ := exists_fetchMarker_of_complete hib hN hpos
  have hlen := Memory.length_of_readBytes hread
  rw [hfetch]
  refine fetched_marker_of_ne (by omega) ?_
  rintro rfl
  have h8 : 8 = min 8 (d.N - d.pos) := hlen
  rw [← h8] at hread
  exact hbad.elim (fun hshort => by omega) fun hne => hne hread

/-- Settles O30: what is left of the operand is not the marker. -/
theorem stepOnBadMarkerIsFormatError : Obligations.StepOnBadMarkerIsFormatError := by
  intro s hinv hnext hph hrun hn hbad
  obtain ⟨-, ⟨-, hib, hroll, -⟩, -⟩ := hinv
  obtain ⟨-, -, hN, -, hpos, -⟩ := hroll (.inl hph)
  have hstep : step s = .next { s.popped with dec := raiseDec .format s.dec } := by
    rw [step_of_complete hnext hph hrun hn.ge, fetchMarker_of_bad hib hN hpos hbad]
    rfl
  exact stopped_of_raiseDec hstep

end Sys2Proof.Machine
end

section
/-! PROOFS. Progress of DEC (42_decoder.md R135, R138): each step in a pass raises a measure, and the pass
ends. -/

namespace Sys2Proof.Machine

/-! ### A step in the pass -/

/-- One step's progress, by what it did: a pixel, the start of a run, or a repeat. -/
theorem Dec.measure_of_streamStep {trailing : Config.TrailingBytes} {d d' : Dec} (hs : d.StreamStep trailing d')
    (hph' : d'.phase = .stream) :
    d.pos ≤ d'.pos ∧ d.n ≤ d'.n ∧ d'.n ≤ d.n + 1 ∧
      64 * d.pos + d.n + d'.run < 64 * d'.pos + d'.n + d.run := by
  cases hs with
  | error e d₀ hib => exact nomatch hph'
  | repeats hrun => simp only [repeatPixel_pos, repeatPixel_n, repeatPixel_run]; omega
  | pixel p cache len hrun hn hpos hlen =>
    simp only [pixOut_pos, pixOut_n, pixOut_run, advance_pos, advance_n, advance_run]
    omega
  | startRun n hle hfit hpos => simp only [advance_pos, advance_n]; omega
  | finish hrun hn hpos hend => exact nomatch hph'

/-- Settles O32: DEC's step is one of the stream step's cases. -/
theorem decStepRaisesTheMeasure : Obligations.DecStepRaisesTheMeasure := by
  intro s t hinv hnext hph hstep hph'
  rw [step_of_stream hnext hph] at hstep
  obtain ⟨d, rfl, hs⟩ := streamStep_next hstep
  exact Dec.measure_of_streamStep hs hph'

/-! ### No step in the pass faults -/

/-- The chunk's bytes, as far as there are any: an operand handed over holds them all. -/
theorem exists_fetchChunk_of_complete {d : Dec} (hib : d.ib.complete) (hN : d.N = d.ib.len)
    (hpos : d.pos ≤ d.N) : ∃ bytes, fetchChunk d = fetched .chunk bytes := by
  by_cases hend : d.pos = d.N
  · exact ⟨[], if_pos hend⟩
  · obtain ⟨first, hfirst, hlen⟩ := Memory.readBytes_of_covers 1 (a := d.pos) hib (by omega)
    obtain ⟨b0, rfl⟩ := List.length_eq_one_iff.1 hlen
    obtain ⟨bytes, hbytes, -⟩ :=
      Memory.readBytes_of_covers (min (chunkKind b0).length (d.N - d.pos)) (a := d.pos) hib (by omega)
    refine ⟨bytes, ?_⟩
    simp only [fetchChunk, Buffer.read, if_neg hend, hfirst, hbytes]

/-- Bytes that were read run as an instruction, or raise: either way there is a next state. -/
theorem exists_runFetched_fetched (p : Position) (bytes : List Byte) (s : State) :
    ∃ t, runFetched (fetched p bytes) s = .next t := by
  cases hdecode : decode p bytes with
  | ok r =>
    obtain ⟨d, hexec⟩ := exec_next r.1 s
    rw [fetched_of_decode hdecode]
    exact ⟨_, hexec⟩
  | error e =>
    rw [fetched_of_error hdecode]
    exact ⟨_, rfl⟩

theorem exists_streamStep {s : State} (hinv : s.dec.Inv) (hph : s.dec.phase = .stream) :
    ∃ t, streamStep s = .next t := by
  obtain ⟨-, hib, hroll, -⟩ := hinv
  obtain ⟨-, -, hN, -, hpos, -⟩ := hroll (.inl hph)
  rcases streamStep_cases s with ⟨-, hs⟩ | ⟨-, -, hs⟩ | ⟨-, -, hs⟩ <;> rw [hs]
  · exact ⟨_, rfl⟩
  · obtain ⟨bytes, hfetch⟩ := exists_fetchChunk_of_complete hib hN hpos
    exact hfetch ▸ exists_runFetched_fetched .chunk bytes s
  · obtain ⟨bytes, -, hfetch⟩ := exists_fetchMarker_of_complete hib hN hpos
    exact hfetch ▸ exists_runFetched_fetched .marker bytes s

/-! ### The pass ends -/

/-- How many steps a pass can still make before its last one: a byte or a pixel each (42_decoder.md R138). -/
def Dec.stepsLeft (d : Dec) : Nat := (d.N - d.pos) + (d.T - d.n)

/-- A stream step ends the pass, or takes a byte or makes a pixel. -/
theorem Dec.stepsLeft_of_streamStep {trailing : Config.TrailingBytes} {d d' : Dec} (hinv : d.Inv)
    (hph : d.phase = .stream) (hs : d.StreamStep trailing d') :
    (d'.phase = .done ∨ d'.phase = .error) ∨ d'.phase = .stream ∧ d'.stepsLeft < d.stepsLeft := by
  obtain ⟨-, -, hroll, -⟩ := hinv
  obtain ⟨-, -, -, -, hpos, hfit, -⟩ := hroll (.inl hph)
  cases hs with
  | error e d₀ hib => exact .inl (.inr rfl)
  | repeats hrun =>
    refine .inr ⟨hph, ?_⟩
    show (d.N - d.pos) + (d.T - (d.n + 1)) < (d.N - d.pos) + (d.T - d.n)
    omega
  | pixel p cache len hrun hn hpos hlen =>
    refine .inr ⟨hph, ?_⟩
    show (d.N - (d.pos + len)) + (d.T - (d.n + 1)) < (d.N - d.pos) + (d.T - d.n)
    omega
  | startRun n hle hfit' hpos' =>
    refine .inr ⟨hph, ?_⟩
    show (d.N - (d.pos + 1)) + (d.T - d.n) < (d.N - d.pos) + (d.T - d.n)
    omega
  | finish hrun hn hpos hend => exact .inl (.inl rfl)

/-- DEC moves at every step of its pass when nothing is on the agenda (log entry 3). -/
theorem step_of_quiet_stream {s : State} (hagenda : s.agenda = []) (hph : s.dec.phase = .stream) :
    step s = streamStep s := by
  rw [step_of_stream (.inr ⟨hagenda, (busy_dec_iff _).2 hph⟩) hph, popped_of_nil hagenda]

/-- Settles O58, by induction on the steps left. -/
theorem everyDecPassEnds : Obligations.EveryDecPassEnds := by
  intro s hinv hagenda hph
  change reachesWithin s (s.dec.stepsLeft + 1) _
  induction hleft : s.dec.stepsLeft using Nat.strong_induction_on generalizing s with
  | _ k ih =>
    obtain ⟨t, hmove⟩ := exists_streamStep hinv.2.1 hph
    have hstep := (step_of_quiet_stream hagenda hph).trans hmove
    have hinv' := stepKeepsTheInvariant s t hinv hstep
    obtain ⟨d, rfl, hs⟩ := streamStep_next hmove
    apply reachesWithin_succ hstep
    rcases Dec.stepsLeft_of_streamStep hinv.2.1 hph hs with hend | ⟨hph', hlt⟩
    · exact ⟨0, _, Nat.zero_le k, rfl, hend⟩
    · obtain ⟨j, u, hj, hrun⟩ := ih _ (hleft ▸ hlt) _ hinv' hagenda hph' rfl
      exact ⟨j, u, hj.trans (hleft ▸ hlt), hrun⟩

end Sys2Proof.Machine
end

section
/-! PROOFS. One chunk in both units (42_decoder.md R139): what ENC chooses for a pixel, and what it makes of
DEC. -/

namespace Sys2Proof.Machine

/-! ### The chunk for a differing pixel -/

/-- The chunk that a differing pixel becomes (41_encoder.md R109 to R115). `codePixel_eq` ties it to ENC. -/
def chunkFor (p prev : Pixel) (cache : Cache) : Instr :=
  if Cache.slot cache (hash p) = p then .index (hash p) else literalFor p prev

/-- The cache once the pixel is coded: it holds the pixel in its slot (41_encoder.md R109, R110). -/
def Cache.holding (cache : Cache) (p : Pixel) : Cache :=
  if Cache.slot cache (hash p) = p then cache else Cache.write cache (hash p) p

theorem codePixel_eq (p : Pixel) (e : Enc) : codePixel p e =
    emit (encode (chunkFor p e.prev e.cache)) { e with cache := Cache.holding e.cache p } := by
  unfold codePixel chunkFor Cache.holding
  split <;> rfl

theorem emitted_codePixel (p : Pixel) (e : Enc) :
    e.emitted (codePixel p e) (encode (chunkFor p e.prev e.cache)) := by
  rw [codePixel_eq]
  exact emitted_emit _ _

/-- A literal with what was tested to choose it (41_encoder.md R111 to R115). -/
theorem literalFor_cases (p prev : Pixel) :
    (p.a ≠ prev.a ∧ literalFor p prev = .rgba p.r p.g p.b p.a) ∨
    (p.a = prev.a ∧
      ((fitsDiff (delta p.r prev.r) (delta p.g prev.g) (delta p.b prev.b) = true ∧
        literalFor p prev = .diff (delta p.r prev.r) (delta p.g prev.g) (delta p.b prev.b)) ∨
      (fitsLuma (delta p.r prev.r) (delta p.g prev.g) (delta p.b prev.b) = true ∧
        literalFor p prev = .luma (delta p.g prev.g) (delta p.r prev.r - delta p.g prev.g)
          (delta p.b prev.b - delta p.g prev.g)) ∨
      literalFor p prev = .rgb p.r p.g p.b)) := by
  by_cases ha : p.a = prev.a
  · refine .inr ⟨ha, ?_⟩
    rw [literalFor_of_alpha_eq ha]
    split
    · next hd => exact .inl ⟨hd, rfl⟩
    · split
      · next hl => exact .inr (.inl ⟨hl, rfl⟩)
      · exact .inr (.inr rfl)
  · exact .inl ⟨ha, literalFor_of_alpha_ne ha⟩

theorem wellFormed_literalFor (p prev : Pixel) : wellFormed (literalFor p prev) = true := by
  rcases literalFor_cases p prev with ⟨-, h⟩ | ⟨-, ⟨hd, h⟩ | ⟨hl, h⟩ | h⟩ <;> rw [h]
  · rfl
  · exact hd
  · exact hl
  · rfl

theorem wellFormed_chunkFor (p prev : Pixel) (cache : Cache) : wellFormed (chunkFor p prev cache) = true := by
  unfold chunkFor
  split
  · rfl
  · exact wellFormed_literalFor p prev

theorem position_chunkFor (p prev : Pixel) (cache : Cache) : (chunkFor p prev cache).position = .chunk := by
  unfold chunkFor
  split
  · rfl
  · exact position_literalFor p prev

/-! ### The chunk in DEC -/

/-- 30_encoding.md R89: the deltas that ENC computes give the pixel back, where alpha stays. -/
theorem applyDeltas_delta {p prev : Pixel} (ha : p.a = prev.a) :
    applyDeltas prev (delta p.r prev.r) (delta p.g prev.g) (delta p.b prev.b) = p := by
  simp only [applyDeltas, addDelta_delta, ← ha]

/-- DEC after a chunk of `len` bytes that makes the pixel `p`. `exec_chunkFor` ties it to the chunks. -/
def Dec.withPixel (p : Pixel) (len : Nat) (d : Dec) : Dec :=
  pixOut p { advance len d with prev := p, cache := Cache.holding d.cache p }

section
variable {s : State} {p : Pixel}

theorem exec_literalFor (hfits : s.dec.pos + (literalFor p s.dec.prev).size ≤ s.dec.N) :
    exec (literalFor p s.dec.prev) s =
      .next { s with dec := newPixel p (advance (literalFor p s.dec.prev).size s.dec) } := by
  rcases literalFor_cases p s.dec.prev with ⟨-, h⟩ | ⟨ha, ⟨-, h⟩ | ⟨-, h⟩ | h⟩ <;> rw [h] at hfits ⊢
  · exact exec_rgba_of_fits p.r p.g p.b p.a hfits
  · simp only [exec, execDiff, applyDeltas_delta ha, Instr.size]
  · rw [exec_luma_of_fits _ _ _ hfits, Int.sub_add_cancel, Int.sub_add_cancel, applyDeltas_delta ha]
    rfl
  · rw [exec_rgb_of_fits p.r p.g p.b hfits, ← ha]
    rfl

/-- The chunk for a pixel, run on the `prev` and the cache that it was chosen by, outputs the pixel and brings
`prev` and the cache to what ENC has after it. -/
theorem exec_chunkFor (hfits : s.dec.pos + (chunkFor p s.dec.prev s.dec.cache).size ≤ s.dec.N) :
    exec (chunkFor p s.dec.prev s.dec.cache) s =
      .next { s with dec := s.dec.withPixel p (chunkFor p s.dec.prev s.dec.cache).size } := by
  unfold Dec.withPixel chunkFor Cache.holding at *
  split
  · next hslot =>
    simp only [exec, execIndex, hslot]
    rfl
  · next hslot =>
    rw [if_neg hslot] at hfits
    exact exec_literalFor hfits

end

/-! ### The lockstep -/

section
variable {e : Enc} {p : Pixel}

theorem encPixel_eq_of_ne (hp : p ≠ e.prev) : encPixel p e =
    { emit (encode (chunkFor p e.prev e.cache)) (flushRun e) with
      prev := p
      cache := Cache.holding e.cache p } := by
  rw [encPixel_of_ne hp, codePixel_eq, flushRun_prev, flushRun_cache]
  rfl

theorem emitted_encPixel_of_ne (hp : p ≠ e.prev) : e.emitted (encPixel p e)
    ((if 0 < e.run then encode (.run e.run) else []) ++ encode (chunkFor p e.prev e.cache)) := by
  rw [encPixel_eq_of_ne hp]
  exact Enc.emitted_congr (Enc.emitted_trans (emitted_flushRun e) (emitted_emit _ _)) rfl rfl

end

/-- Settles O44: the chunk is the one that ENC's `prev` and cache choose, and DEC holds the same. -/
theorem oneChunkKeepsTheLockstep : Obligations.OneChunkKeepsTheLockstep := by
  intro e s p hp hprev hcache hfits
  have hchunk := position_chunkFor p e.prev e.cache
  have hsize := (size_of_chunk hchunk).2
  have hexec := exec_chunkFor (s := s) (p := p) (by rw [hprev, hcache]; omega)
  rw [hprev, hcache] at hexec
  refine ⟨_, _, wellFormed_chunkFor p e.prev e.cache, hchunk, emitted_encPixel_of_ne hp, hexec, rfl,
    pixelOut_pixOut p _, rfl, ?_⟩
  rw [encPixel_eq_of_ne hp]
  exact congrArg (Cache.holding · p) hcache

end Sys2Proof.Machine
end

section
/-! PROOFS. Runs of the machine, and the bytes of a read one by one. -/

namespace Sys2Proof.Machine

/-! ### Runs without a bound -/

theorem reaches_refl {s : State} {P : State → Prop} (h : P s) : reaches s P := ⟨0, s, rfl, h⟩

theorem reaches_of_step {s t : State} {P : State → Prop} (h : step s = .next t) (ht : reaches t P) :
    reaches s P := by
  obtain ⟨j, u, hrun, hP⟩ := ht
  exact ⟨j + 1, u, (run_succ j h).trans hrun, hP⟩

/-- A run of at least one step begins with a step. -/
theorem step_of_run_succ {s t : State} {j : Nat} (h : Host.Core.run core (j + 1) s = .next t) :
    ∃ u, step s = .next u ∧ Host.Core.run core j u = .next t := by
  have hcore : core.step s = step s := rfl
  simp only [Host.Core.run, hcore] at h
  cases hstep : step s with
  | next u => exact ⟨u, rfl, by rwa [hstep] at h⟩
  | fault r => rw [hstep] at h; exact nomatch h
  | refused r => rw [hstep] at h; exact nomatch h

theorem reaches_trans {s : State} {P Q : State → Prop} (h : reaches s P) (hPQ : ∀ t, P t → reaches t Q) :
    reaches s Q := by
  obtain ⟨j, t, hrun, hP⟩ := h
  induction j generalizing s with
  | zero => cases hrun; exact hPQ _ hP
  | succ j ih =>
    obtain ⟨u, hstep, hrest⟩ := step_of_run_succ hrun
    exact reaches_of_step hstep (ih hrest)

/-! ### One byte of a read -/

theorem Memory.exists_of_readBytes_succ {m : Memory} {a n : Nat} {bs : List Byte}
    (h : Memory.readBytes m a (n + 1) = some bs) :
    ∃ b tail, m.read a = some b ∧ Memory.readBytes m (a + 1) n = some tail ∧ bs = b :: tail := by
  simp only [Memory.readBytes, Option.bind_eq_bind, Option.bind_eq_some_iff] at h
  obtain ⟨b, hb, tail, htail, hbs⟩ := h
  exact ⟨b, tail, hb, htail, (Option.some.inj hbs).symm⟩

theorem Memory.read_of_readBytes {m : Memory} {n a j : Nat} {bs : List Byte}
    (h : Memory.readBytes m a n = some bs) (hj : j < n) : m.read (a + j) = bs[j]? := by
  induction n generalizing a j bs with
  | zero => exact absurd hj (Nat.not_lt_zero j)
  | succ n ih =>
    obtain ⟨b, tail, hb, htail, rfl⟩ := Memory.exists_of_readBytes_succ h
    cases j with
    | zero => exact hb
    | succ j =>
      rw [show a + (j + 1) = a + 1 + j by omega]
      exact ih htail (Nat.lt_of_succ_lt_succ hj)

/-- The bytes of a pixel that ENC reads (20_memory.md R66). -/
theorem read_of_pixIn {e : Enc} {k : Nat} {p : Pixel} (h : pixIn e k = some p) :
    e.pb.cells.read (k * e.hdr.stride) = some p.r ∧ e.pb.cells.read (k * e.hdr.stride + 1) = some p.g ∧
    e.pb.cells.read (k * e.hdr.stride + 2) = some p.b ∧
    (e.hdr.C = 4 → e.pb.cells.read (k * e.hdr.stride + 3) = some p.a) := by
  have hrgb : ∀ {r g b : Byte}, e.pb.read (k * e.hdr.stride) 3 = some [r, g, b] →
      e.pb.cells.read (k * e.hdr.stride) = some r ∧ e.pb.cells.read (k * e.hdr.stride + 1) = some g ∧
      e.pb.cells.read (k * e.hdr.stride + 2) = some b := fun hread =>
    ⟨Memory.read_of_readBytes (j := 0) hread (by decide), Memory.read_of_readBytes (j := 1) hread (by decide),
      Memory.read_of_readBytes (j := 2) hread (by decide)⟩
  unfold pixIn at h
  split at h
  · next hC =>
    split at h
    · next r g b a hread ha =>
      cases h
      obtain ⟨hr, hg, hb⟩ := hrgb hread
      exact ⟨hr, hg, hb, fun _ => Memory.read_of_readBytes (j := 0) ha (by decide)⟩
    · exact nomatch h
  · next hC =>
    split at h
    · next r g b hread =>
      cases h
      obtain ⟨hr, hg, hb⟩ := hrgb hread
      exact ⟨hr, hg, hb, fun h4 => absurd h4 hC⟩
    · exact nomatch h

theorem pixIn_congr {e e' : Enc} (hhdr : e'.hdr = e.hdr) (hpb : e'.pb = e.pb) (k : Nat) :
    pixIn e' k = pixIn e k := by
  simp only [pixIn, hhdr, hpb]

end Sys2Proof.Machine
end

section
/-! PROOFS. A DEC that reads ENC's output follows ENC (42_decoder.md R139): the relation between the two, and what
each thing that ENC emits does to it. -/

namespace Sys2Proof.Machine

/-! ### The operand -/

/-- The buffer begins with the bytes that ENC has written. -/
def Buffer.begins (ib : Buffer) (e : Enc) : Prop :=
  e.oc ≤ ib.len ∧ ∀ a < e.oc, ib.cells.read a = e.ob.read a

/-- A buffer that begins with an output holds its last part where ENC wrote it, and begins with what was there
before. -/
theorem Buffer.begins_of_emitted {ib : Buffer} {e e' : Enc} {bs : List Byte} (h : ib.begins e')
    (hem : e.emitted e' bs) :
    ib.begins e ∧ e.oc + bs.length ≤ ib.len ∧ ib.read e.oc bs.length = some bs := by
  obtain ⟨hlen, hbytes⟩ := h
  obtain ⟨hoc, hread, hframe⟩ := hem
  rw [hoc] at hlen hbytes
  refine ⟨⟨by omega, fun a ha => ?_⟩, hlen, ?_⟩
  · rw [hbytes a (by omega), hframe a (.inl ha)]
  · exact (Memory.readBytes_congr bs.length fun a _ ha => hbytes a ha).trans hread

/-! ### The relation -/

/-- DEC has read what ENC has written: it holds the same `prev` and cache, and its output is the pixels that ENC
has taken, but for those of a pending run of DEC or of ENC, which are all `prev`. -/
structure Enc.followed (e : Enc) (ib : Buffer) (s : State) : Prop where
  agenda : s.agenda = []
  phase : s.dec.phase = .stream
  hdr : s.dec.hdr = e.hdr
  operand : s.dec.ib = ib
  len : s.dec.N = ib.len
  pos : s.dec.pos = e.oc
  count : s.dec.n + s.dec.run + e.run = e.k
  prev : s.dec.prev = e.prev
  cache : s.dec.cache = e.cache
  output : ∀ a < s.dec.n * e.hdr.stride, s.dec.po.read a = e.pb.cells.read a
  pending : ∀ j, s.dec.n ≤ j → j < e.k → pixIn e j = some e.prev

/-- A pixel that DEC outputs where ENC read it extends the equal part. -/
theorem output_of_pixelOut {e : Enc} {d d' : Dec} {p : Pixel} (hC : e.hdr.C = 3 ∨ e.hdr.C = 4)
    (hhdr : d.hdr = e.hdr) (hout : ∀ a < d.n * e.hdr.stride, d.po.read a = e.pb.cells.read a)
    (hpix : pixIn e d.n = some p) (hp : d.pixelOut d' p) :
    ∀ a < (d.n + 1) * e.hdr.stride, d'.po.read a = e.pb.cells.read a := by
  intro a ha
  obtain ⟨-, hr, hg, hb, halpha, hframe⟩ := hp
  obtain ⟨hr', hg', hb', halpha'⟩ := read_of_pixIn hpix
  have hstride : d.hdr.C.toNat = e.hdr.stride := congrArg Header.stride hhdr
  rw [hstride] at hr hg hb halpha hframe
  rw [Nat.add_mul, Nat.one_mul] at ha
  by_cases hold : a < d.n * e.hdr.stride
  · rw [hframe a (.inl hold), hout a hold]
  · obtain ⟨j, rfl⟩ := Nat.exists_eq_add_of_le (Nat.le_of_not_lt hold)
    have hj : j = 0 ∨ j = 1 ∨ j = 2 ∨ j = 3 ∧ e.hdr.C = 4 := by
      rcases hC with hC | hC
      · have h3 : e.hdr.stride = 3 := by rw [Header.stride, hC]; rfl
        omega
      · have h4 : e.hdr.stride = 4 := by rw [Header.stride, hC]; rfl
        simp only [hC, and_true]
        omega
    rcases hj with rfl | rfl | rfl | ⟨rfl, h4⟩
    · exact hr.trans hr'.symm
    · exact hg.trans hg'.symm
    · exact hb.trans hb'.symm
    · exact (halpha (hhdr ▸ h4)).trans (halpha' h4).symm

section
variable {e : Enc} {ib : Buffer} {s : State} {p : Pixel}

theorem Enc.followed.decNext (h : e.followed ib s) : s.decNext := .inr ⟨h.agenda, (busy_dec_iff _).2 h.phase⟩

theorem Enc.followed.T_eq (h : e.followed ib s) : s.dec.T = e.T := congrArg Header.pixels h.hdr

/-! ### DEC's pending repeats -/

/-- While DEC has repeats pending it writes them, and follows ENC all along. -/
theorem Enc.followed.drain (h : e.followed ib s) (hC : e.hdr.C = 3 ∨ e.hdr.C = 4) :
    reaches s fun t => e.followed ib t ∧ t.dec.run = 0 := by
  induction hrun : s.dec.run generalizing s with
  | zero => exact reaches_refl ⟨h, hrun⟩
  | succ r ih =>
    have hstep := (step_of_quiet_stream h.agenda h.phase).trans (streamStep_of_pending (by omega))
    have hpix : pixIn e s.dec.n = some s.dec.prev := h.prev ▸ h.pending _ le_rfl (by have := h.count; omega)
    refine reaches_of_step hstep (ih ?_ (by simp [hrun]))
    exact { h with
      count := by
        have := h.count
        show s.dec.n + 1 + (s.dec.run - 1) + e.run = e.k
        omega
      output := output_of_pixelOut hC h.hdr h.output hpix (pixelOut_pixOut _ _)
      pending := fun j hj => h.pending j (Nat.le_of_succ_le hj) }

/-! ### A chunk at the cursor -/

/-- What ENC emits next, DEC finds at its cursor, and runs it. -/
theorem Enc.followed.step_eq (h : e.followed ib s) (hrun : s.dec.run = 0) (hn : s.dec.n < e.T) {i : Instr}
    (hwf : wellFormed i = true) (hchunk : i.position = .chunk) (hfits : e.oc + (encode i).length ≤ ib.len)
    (hread : ib.read e.oc (encode i).length = some (encode i)) : step s = exec i s := by
  have hstep := stepRunsTheChunk s i h.decNext h.phase hrun (h.T_eq ▸ hn) hwf hchunk
  rw [h.pos, h.len, h.operand, ← length_encode, popped_of_nil h.agenda] at hstep
  exact hstep hfits hread

/-- ENC's flush: DEC turns the pending run of ENC into its own. -/
theorem Enc.followed.flush_of_pending (h : e.followed ib s) (hrun : s.dec.run = 0) (hle : e.run ≤ 62)
    (hk : e.k ≤ e.T) (hpos : 0 < e.run) (hbegins : ib.begins (flushRun e)) : reaches s ((flushRun e).followed ib) := by
  have hflush : flushRun e = { emit (encode (.run e.run)) e with run := 0 } := if_pos hpos
  rw [hflush] at hbegins ⊢
  obtain ⟨-, hfits, hread⟩ := Buffer.begins_of_emitted hbegins (emitted_emit (encode (.run e.run)) e)
  have hcount := h.count
  have hT := h.T_eq
  have hwf : wellFormed (.run e.run) = true := decide_eq_true ⟨hpos, hle⟩
  have hstep := (h.step_eq hrun (by omega) hwf rfl hfits hread).trans (exec_run_of_fits (by omega))
  refine reaches_of_step hstep (reaches_refl ?_)
  exact { h with
    pos := congrArg (· + 1) h.pos
    count := by show s.dec.n + e.run + 0 = e.k; omega }

/-- After ENC's flush DEC has caught up with it. -/
theorem Enc.followed.flush (h : e.followed ib s) (hC : e.hdr.C = 3 ∨ e.hdr.C = 4) (hle : e.run ≤ 62)
    (hk : e.k ≤ e.T) (hbegins : ib.begins (flushRun e)) :
    reaches s fun t => (flushRun e).followed ib t ∧ t.dec.run = 0 := by
  have hC' : (flushRun e).hdr.C = 3 ∨ (flushRun e).hdr.C = 4 := (flushRun_hdr e).symm ▸ hC
  refine reaches_trans (h.drain hC) fun t ⟨ht, hrun⟩ => ?_
  by_cases hpos : 0 < e.run
  · exact reaches_trans (ht.flush_of_pending hrun hle hk hpos hbegins) fun u hu => hu.drain hC'
  · have hflush : flushRun e = e := if_neg hpos
    exact reaches_refl ⟨hflush.symm ▸ ht, hrun⟩

/-! ### A pixel of ENC -/

/-- A repeated pixel: only the run grows. -/
theorem Enc.followed.repeated (h : e.followed ib s) (hp : p = e.prev) (hpix : pixIn e e.k = some p)
    (ph : EncPhase) :
    ({ e with run := e.run + 1, k := e.k + 1, phase := ph } : Enc).followed ib s := by
  subst hp
  exact { h with
    count := congrArg (· + 1) h.count
    pending := fun j hj hlt => (Nat.lt_succ_iff_lt_or_eq.1 hlt).elim (h.pending j hj) fun heq => heq ▸ hpix }

/-- A differing pixel: its chunk makes the same pixel, `prev` and cache in DEC. -/
theorem Enc.followed.chunk (h : e.followed ib s) (hC : e.hdr.C = 3 ∨ e.hdr.C = 4) (hrun : s.dec.run = 0)
    (hrun' : e.run = 0) (hk : e.k < e.T) (hpix : pixIn e e.k = some p) (ph : EncPhase)
    (hbegins : ib.begins (codePixel p e)) :
    reaches s (({ codePixel p e with k := e.k + 1, prev := p, phase := ph } : Enc).followed ib) := by
  obtain ⟨-, hfits, hread⟩ := Buffer.begins_of_emitted hbegins (emitted_codePixel p e)
  have hcount := h.count
  have hn : s.dec.n = e.k := by omega
  have hexec := exec_chunkFor (s := s) (p := p)
  rw [h.prev, h.cache, h.pos, h.len, ← length_encode] at hexec
  have hstep := (h.step_eq hrun (hn ▸ hk) (wellFormed_chunkFor p e.prev e.cache)
    (position_chunkFor p e.prev e.cache) hfits hread).trans (hexec hfits)
  refine reaches_of_step hstep (reaches_refl ?_)
  rw [codePixel_eq]
  exact { h with
    pos := congrArg (· + _) h.pos
    count := by show s.dec.n + 1 + s.dec.run + e.run = e.k + 1; omega
    prev := rfl
    cache := congrArg (Cache.holding · p) h.cache
    output := output_of_pixelOut hC h.hdr h.output (hn ▸ hpix) (pixelOut_pixOut p _)
    pending := fun j hj hlt => absurd (Nat.lt_of_lt_of_le hlt (hn ▸ hj)) (lt_irrefl _) }

/-- The same where ENC has flushed its run first (41_encoder.md R108). -/
theorem Enc.followed.chunk_of_flush (h : (flushRun e).followed ib s) (hC : e.hdr.C = 3 ∨ e.hdr.C = 4)
    (hrun : s.dec.run = 0) (hk : e.k < e.T) (hpix : pixIn e e.k = some p) (ph : EncPhase)
    (hbegins : ib.begins (codePixel p (flushRun e))) :
    reaches s (({ codePixel p (flushRun e) with k := e.k + 1, prev := p, phase := ph } : Enc).followed ib) := by
  have hhdr := flushRun_hdr e
  have hT : (flushRun e).T = e.T := congrArg Header.pixels hhdr
  have hpix' : pixIn (flushRun e) (flushRun e).k = some p := by
    rw [pixIn_congr hhdr (flushRun_pb e), flushRun_k, hpix]
  rw [← hhdr] at hC
  rw [← flushRun_k e]
  exact h.chunk hC hrun (flushRun_run e) (by rwa [hT, flushRun_k]) hpix' ph hbegins

/-! ### The marker -/

/-- At the end of ENC's output DEC finds the marker, and nothing after it. -/
theorem Enc.followed.step_marker (h : e.followed ib s) (hrun : s.dec.run = 0) (hn : s.dec.n = e.T)
    (hlen : ib.len = e.oc + 8) (hread : ib.read e.oc 8 = some Config.endMarker) :
    step s = .next { s with dec := { advance 8 s.dec with phase := .done } } := by
  have hT := h.T_eq
  have hend : s.dec.pos + 8 = s.dec.N := by rw [h.pos, h.len, hlen]
  have hread' : s.dec.ib.read s.dec.pos 8 = some Config.endMarker := by rwa [h.pos, h.operand]
  have hstep := stepRunsTheEndMarker s h.decNext h.phase hrun (by omega) hend.le hread'
  rw [hstep, popped_of_nil h.agenda, ← endOfStream_of_ends (trailing := s.params.trailing) hend.le (.inl hend)]
  rfl

end

end Sys2Proof.Machine
end

section
/-! PROOFS. The round trip (42_decoder.md R140): along ENC's whole pass a DEC started on its output can follow it,
and at the marker it has the image. -/

namespace Sys2Proof.Machine

/-! ### Along ENC's pass -/

/-- A DEC that starts on any buffer that begins with ENC's output so far gets to where ENC is. -/
def Enc.decodable (e : Enc) : Prop :=
  ∀ (s : State) (d : Dec), s.agenda = [] → d.ib.begins e →
    reaches { s with dec := initDec e.hdr d } (e.followed d.ib)

/-- A DEC that starts on ENC's whole output reaches DONE with ENC's header and, in PO, ENC's image. -/
def Enc.decoded (e : Enc) : Prop :=
  ∀ (s : State) (d : Dec), s.agenda = [] → d.ib.begins e → d.ib.len = e.oc →
    reaches { s with dec := initDec e.hdr d } fun t => t.dec.phase = .done ∧ t.dec.hdr = e.hdr ∧
      ∀ a < e.T * e.hdr.stride, t.dec.po.read a = e.pb.cells.read a

/-- Of the header that ENC emits at its start a DEC has read all once it has started. -/
theorem decodable_start {bs : List Byte} (hlen : bs.length = 14) (hdr : Header) (e : Enc) (ph : EncPhase) :
    ({ emit bs (initEnc hdr e) with phase := ph } : Enc).decodable := fun _ _ hagenda _ =>
  reaches_refl
    { agenda := hagenda
      phase := rfl
      hdr := rfl
      operand := rfl
      len := rfl
      pos := (Nat.zero_add 14).symm.trans (congrArg (0 + ·) hlen.symm)
      count := rfl
      prev := rfl
      cache := rfl
      output := fun a ha => absurd (Nat.zero_mul _ ▸ ha) (Nat.not_lt_zero a)
      pending := fun j _ hj => absurd hj (Nat.not_lt_zero j) }

theorem channels_of_valid {w h : Nat} {c : Byte} {cs : Nat} (hval : validEncHeader w h c.toNat cs = true) :
    c = 3 ∨ c = 4 := by
  obtain ⟨-, -, -, -, hc, -⟩ := of_decide_eq_true hval
  exact hc.imp BitVec.eq_of_toNat_eq BitVec.eq_of_toNat_eq

section
variable {e : Enc} {p : Pixel}

/-- ENC's flush, in a DEC that starts on a buffer that begins with its output. -/
theorem Enc.decodable.flush (h : e.decodable) (hroll : e.rolling) (hk : e.k ≤ e.T) {s : State} {d : Dec}
    (hagenda : s.agenda = []) (hbegins : d.ib.begins (flushRun e)) :
    reaches { s with dec := initDec e.hdr d } fun t => (flushRun e).followed d.ib t ∧ t.dec.run = 0 := by
  obtain ⟨-, hval, -, -, -, hrun, -⟩ := hroll
  obtain ⟨hbegins', -⟩ := Buffer.begins_of_emitted hbegins (emitted_flushRun e)
  exact reaches_trans (h s d hagenda hbegins') fun t ht => ht.flush (channels_of_valid hval) hrun hk hbegins

/-- Each of the three ways of a pixel step (41_encoder.md R105 to R108). -/
theorem decodable_encPixelStep (hinv : e.Inv) (hph : e.phase = .pixels) (hpix : pixIn e e.k = some p)
    (h : e.decodable) : (encPixelStep p e).decodable := by
  obtain ⟨-, -, hroll, hpixels, -⟩ := hinv
  have hroll := hroll (.inl hph)
  have hk := (hpixels hph).1
  obtain ⟨-, hval, -, -, -, hrun, -⟩ := id hroll
  have hhdr : (encPixelStep p e).hdr = e.hdr := encPixel_hdr p e
  intro s d hagenda hbegins
  rw [hhdr]
  unfold encPixelStep at hbegins ⊢
  rcases encPixel_cases p e with ⟨hp, -, hx⟩ | ⟨hp, hfull, hx⟩ | ⟨-, hx⟩ <;> rw [hx] at hbegins ⊢
  · exact reaches_trans (h s d hagenda hbegins) fun t ht => reaches_refl (ht.repeated hp hpix _)
  · obtain hfull : e.run = 62 := le_antisymm hrun hfull
    have hflush : flushRun e = { emit (encode (.run 62)) e with run := 0 } := by
      rw [flushRun, if_pos (by omega), hfull]
    refine reaches_trans (h.flush hroll hk.le hagenda (hflush ▸ hbegins)) fun t ⟨ht, _⟩ => reaches_refl ?_
    rw [hflush] at ht
    exact ht.repeated hp hpix _
  · obtain ⟨hbegins', -⟩ := Buffer.begins_of_emitted hbegins (emitted_codePixel p (flushRun e))
    exact reaches_trans (h.flush hroll hk.le hagenda hbegins') fun t ⟨ht, hrun'⟩ =>
      ht.chunk_of_flush (channels_of_valid hval) hrun' hk hpix _ hbegins

/-- The finish step (41_encoder.md R117): after the flush DEC has every pixel, and the marker ends its pass. -/
theorem decoded_encFinish (hinv : e.Inv) (hph : e.phase = .finish) (h : e.decodable) : (encFinish e).decoded := by
  obtain ⟨-, -, hroll, -, hfinish, -⟩ := hinv
  have hroll := hroll (.inr (.inl hph))
  have hk := (hfinish hph).1
  intro s d hagenda hbegins hlen
  obtain ⟨hbegins', -, hread⟩ :=
    Buffer.begins_of_emitted hbegins (emitted_emit (encode .endMarker) (flushRun e))
  have hhdr : (encFinish e).hdr = e.hdr := flushRun_hdr e
  have hT : (flushRun e).T = e.T := congrArg Header.pixels (flushRun_hdr e)
  rw [hhdr]
  refine reaches_trans (h.flush hroll hk.le hagenda hbegins') fun t ⟨ht, hrun⟩ => ?_
  have hn : t.dec.n = (flushRun e).T := by
    have := ht.count
    rw [hrun, flushRun_run, flushRun_k] at this
    omega
  refine reaches_of_step (ht.step_marker hrun hn hlen hread)
    (reaches_refl ⟨rfl, ht.hdr.trans (flushRun_hdr e), fun a ha => ht.output a ?_⟩)
  rw [hn, flushRun_hdr]
  exact ha

end

/-! ### The whole pass of ENC -/

/-- ENC is DONE with an image, and its output can be decoded whole. -/
structure Enc.encoded (hdr : Header) (pb : Buffer) (e : Enc) : Prop where
  phase : e.phase = .done
  inv : e.Inv
  decoded : e.decoded
  hdr_eq : e.hdr = hdr
  pb_eq : e.pb = pb

theorem reaches_encoded_of_finish {s : State} (hagenda : s.agenda = []) (hdec : s.dec.busy = false)
    (hinv : s.enc.Inv) (hph : s.enc.phase = .finish) (h : s.enc.decodable) :
    reaches s fun t => t.enc.encoded s.enc.hdr s.enc.pb :=
  reaches_of_step ((step_of_quiet hagenda hdec).trans (encMove_of_finish hph)) (reaches_refl
    { phase := rfl
      inv := Enc.inv_encFinish hinv hph
      decoded := decoded_encFinish hinv hph h
      hdr_eq := flushRun_hdr s.enc
      pb_eq := flushRun_pb s.enc })

/-- From a state in which ENC's output so far can be decoded ENC reaches DONE: by induction on the pixels left. -/
theorem reaches_encoded {s : State} (hagenda : s.agenda = []) (hdec : s.dec.busy = false) (hinv : s.enc.Inv)
    (hph : s.enc.phase = .pixels) (h : s.enc.decodable) :
    reaches s fun t => t.enc.encoded s.enc.hdr s.enc.pb := by
  induction hleft : s.enc.T - s.enc.k generalizing s with
  | zero =>
    obtain ⟨-, -, -, hpixels, -⟩ := hinv
    have := (hpixels hph).1
    omega
  | succ m ih =>
    have hk : s.enc.k < s.enc.T := by omega
    obtain ⟨p, hpix⟩ := hinv.exists_pixIn hph
    have hstep := (step_of_quiet hagenda hdec).trans (encMove_of_pixels hph hpix)
    have hinv' := Enc.inv_encPixelStep hinv hph hpix
    have h' := decodable_encPixelStep hinv hph hpix h
    have hhdr : (encPixelStep p s.enc).hdr = s.enc.hdr := encPixel_hdr p s.enc
    have hpb : (encPixelStep p s.enc).pb = s.enc.pb := encPixel_pb p s.enc
    rw [← hhdr, ← hpb]
    apply reaches_of_step hstep
    rcases encPixelStep_phase_cases p hk with ⟨hph', -⟩ | ⟨hph', -⟩
    · refine ih hagenda hdec hinv' hph' h' ?_
      have hT : (encPixelStep p s.enc).T = s.enc.T := congrArg Header.pixels hhdr
      show (encPixelStep p s.enc).T - (s.enc.k + 1) = m
      omega
    · exact reaches_encoded_of_finish (s := { s with enc := encPixelStep p s.enc }) hagenda hdec hinv' hph' h'

/-! ### From the start of ENC to the end of DEC -/

/-- ENC's whole output begins with its header. -/
theorem Enc.Inv.exists_output_with_header {e : Enc} (h : e.Inv) (hdone : e.phase = .done) :
    ∃ rest, Memory.readBytes e.ob 0 e.oc = some (encodeHeader e.hdr.W e.hdr.H e.hdr.C e.hdr.CS ++ rest) := by
  obtain ⟨bs, hread⟩ := h.exists_output hdone
  obtain ⟨-, -, hroll, -, -, hend⟩ := h
  obtain ⟨-, -, -, -, hhead, -⟩ := hroll (.inr (.inr hdone))
  obtain ⟨-, -, hmin, -⟩ := hend hdone
  obtain ⟨k, hk⟩ := Nat.exists_eq_add_of_le (show 14 ≤ e.oc by omega)
  rw [hk, Memory.readBytes_add, hhead, Option.bind_some, Option.map_eq_some_iff] at hread
  obtain ⟨rest, hrest, -⟩ := hread
  exact ⟨rest, by rw [hk, Memory.readBytes_add, hhead, Option.bind_some, hrest]; rfl⟩

/-- A buffer made of ENC's whole output begins with it. -/
theorem Buffer.begins_ofBytes {e : Enc} {bs : List Byte} (h : Memory.readBytes e.ob 0 e.oc = some bs) :
    (Buffer.ofBytes bs).begins e := by
  have hlen := Memory.length_of_readBytes h
  have hcells := Memory.readBytes_writeBytes bs [] 0
  refine ⟨hlen.ge, fun a ha => ?_⟩
  rw [← Nat.zero_add a, Memory.read_of_readBytes h ha]
  exact Memory.read_of_readBytes hcells (hlen.symm ▸ ha)

theorem legalFields_of_valid {w h : Nat} {c cs : Byte} (hval : validEncHeader w h c.toNat cs.toNat = true) :
    legalFields c cs = true := by
  obtain ⟨-, -, -, -, -, hcs⟩ := of_decide_eq_true hval
  exact (legalFields_iff c cs).2 ⟨channels_of_valid hval, hcs.imp BitVec.eq_of_toNat_eq BitVec.eq_of_toNat_eq⟩

/-- DEC's start on ENC's whole output is accepted, and its pass ends with ENC's image (42_decoder.md R140). -/
theorem reaches_done_of_decStart {e : Enc} {hdr : Header} {pb : Buffer} {bytes : List Byte} {s : State}
    (h : e.encoded hdr pb) (hbytes : Memory.readBytes e.ob 0 e.oc = some bytes) (hidle : s.dec.busy = false)
    (hagenda : s.agenda = [.host (.decStart bytes)]) :
    reaches s fun t => t.dec.phase = .done ∧ t.dec.hdr = hdr ∧
      ∀ a < hdr.pixels * hdr.stride, t.dec.po.read a = pb.cells.read a := by
  obtain ⟨hph, hinv, hdecoded, rfl, rfl⟩ := h
  obtain ⟨rest, hout⟩ := hinv.exists_output_with_header hph
  obtain rfl := Option.some.inj (hout.symm.trans hbytes)
  obtain ⟨-, -, hroll, -⟩ := hinv
  obtain ⟨-, hval, -⟩ := hroll (.inr (.inr hph))
  have hnext : s.hostNext (.decStart (encode (.header e.hdr.W e.hdr.H e.hdr.C e.hdr.CS) ++ rest)) := by
    rw [State.hostNext, hagenda]
    rfl
  have hstep := (stepRunsTheHeader s _ _ _ _ rest hidle hnext).trans
    (execHeader_of_legal _ _ (Nat.le_add_left 14 _) (legalFields_of_valid hval))
  exact reaches_of_step hstep (hdecoded s.popped
    { s.dec with ib := Buffer.ofBytes (encodeHeader e.hdr.W e.hdr.H e.hdr.C e.hdr.CS ++ rest) }
    (congrArg List.tail hagenda) (Buffer.begins_ofBytes hbytes) (Memory.length_of_readBytes hbytes))

/-- ENC's start on a valid image is accepted, and its pass ends with an output that can be decoded. -/
theorem reaches_encoded_of_encStart {w h c cs : Nat} {pb : List Byte} {s : State}
    (hval : validEncHeader w h c cs = true) (hlen : pb.length = w * h * c)
    (hagenda : s.agenda = [.host (.encStart w h c cs pb)]) (hidle : s.enc.busy = false)
    (hdec : s.dec.busy = false) :
    reaches s fun t => t.enc.encoded
      ⟨BitVec.ofNat 32 w, BitVec.ofNat 32 h, BitVec.ofNat 8 c, BitVec.ofNat 8 cs⟩ (Buffer.ofBytes pb) := by
  have hnext : s.hostNext (.encStart w h c cs pb) := by rw [State.hostNext, hagenda]; rfl
  have hstep := (step_of_hostNext hnext).trans (hostMove_encStart w h c cs pb hidle)
  have hinv := Enc.inv_encStart w h c cs (e := { s.enc with pb := Buffer.ofBytes pb })
    (Buffer.complete_ofBytes pb)
  rw [encStart_of_valid hval hlen] at hinv hstep
  exact reaches_of_step hstep (reaches_encoded (s := { s.popped with enc := _ }) (congrArg List.tail hagenda) hdec
    hinv rfl (decodable_start rfl _ _ _))

/-- Settles O60: ENC's pass, then DEC's; PO agrees with the buffer byte by byte. -/
theorem roundTrip : Obligations.RoundTrip := by
  intro w h c cs pb s hval hlen hagenda hidle hdec
  obtain ⟨hw, hh, hc, hcs⟩ := toNat_of_validEncHeader hval
  refine reaches_trans (reaches_encoded_of_encStart hval hlen hagenda hidle hdec) fun t ht =>
    reaches_refl ⟨ht.phase, ?_⟩
  obtain ⟨bytes, hbytes⟩ := ht.inv.exists_output ht.phase
  refine ⟨bytes, hbytes, fun s' hagenda' hidle' => ?_⟩
  refine reaches_trans (reaches_done_of_decStart ht hbytes hidle' hagenda') fun t' ⟨hph, hhdr, hpo⟩ =>
    reaches_refl ⟨hph, ?_⟩
  rw [hhdr]
  refine ⟨hw, hh, hc, hcs, ?_⟩
  simp only [Header.pixels, Header.stride, hw, hh, hc, ← hlen] at hpo
  have hsame := Memory.readBytes_congr (a := 0) pb.length fun a _ ha => hpo a (by omega)
  exact hsame.trans (Memory.readBytes_writeBytes pb [] 0)

end Sys2Proof.Machine
end

section
/-! PROOFS. A chunk that the operand cuts off inside its operand bytes (42_decoder.md R130 to R132,
60_exceptions.md R148). -/

namespace Sys2Proof.Machine

/-- With its first byte there, a chunk fails to decode only where it is cut off. -/
theorem errorOf_of_decodeChunk_cons {b0 : Byte} {tail : List Byte} {e : DecodeError}
    (h : decodeChunk (b0 :: tail) = .error e) : errorOf e = .format := by
  simp only [decodeChunk] at h
  split at h
  case h_1 | h_2 | h_4 => exact nomatch h
  case h_3 | h_5 | h_6 =>
    split at h
    · exact nomatch h
    · cases h; rfl

/-- Fewer bytes than the first one asks for hold no chunk: the encoding of one would not fit. -/
theorem fetched_chunk_of_cutOff {b0 : Byte} {tail : List Byte}
    (hcut : (b0 :: tail).length < (chunkKind b0).length) : fetched .chunk (b0 :: tail) = .raise .format := by
  cases hdecode : decode .chunk (b0 :: tail) with
  | ok r =>
    obtain ⟨i, rest⟩ := r
    have hdecode : decodeChunk (b0 :: tail) = .ok (i, rest) := hdecode
    have hsize := size_of_decodeChunk hdecode
    have hbytes := congrArg List.length (encode_of_decodeChunk hdecode)
    rw [List.length_append, length_encode] at hbytes
    omega
  | error e =>
    exact (fetched_of_error hdecode).trans (congrArg Fetched.raise (errorOf_of_decodeChunk_cons hdecode))

/-- The fetch reads what the operand still holds, which begins with the chunk's first byte. -/
theorem fetchChunk_of_cutOff {d : Dec} {b0 : Byte} (hib : d.ib.complete) (hN : d.N = d.ib.len)
    (hpos : d.pos < d.N) (hfirst : d.ib.read d.pos 1 = some [b0])
    (hcut : d.N < d.pos + (chunkKind b0).length) : fetchChunk d = .raise .format := by
  obtain ⟨m, hm⟩ := Nat.exists_eq_add_of_lt hpos
  have hleft : min (chunkKind b0).length (d.N - d.pos) = m + 1 := by omega
  obtain ⟨bytes, hbytes, hlen⟩ := Memory.readBytes_of_covers (m + 1) (a := d.pos) hib (by omega)
  obtain ⟨b, tail, rfl⟩ := List.exists_cons_of_length_eq_add_one hlen
  cases hfirst.symm.trans (Memory.readBytes_one hbytes)
  have hread : d.ib.read d.pos (m + 1) = some (b0 :: tail) := hbytes
  simp only [fetchChunk, if_neg hpos.ne, hfirst, hleft, hread]
  exact fetched_chunk_of_cutOff (by omega)

/-- Settles O29: what is left of the operand is not the whole chunk. -/
theorem stepOnCutOffChunkIsFormatError : Obligations.StepOnCutOffChunkIsFormatError := by
  intro s b0 hinv hnext hph hrun hn hpos hfirst hcut
  obtain ⟨-, ⟨-, hib, hroll, -⟩, -⟩ := hinv
  obtain ⟨-, -, hN, -⟩ := hroll (.inl hph)
  have hstep : step s = .next { s.popped with dec := raiseDec .format s.dec } := by
    rw [step_of_owed hnext hph hrun hn, fetchChunk_of_cutOff hib hN hpos hfirst hcut]
    rfl
  exact stopped_of_raiseDec hstep

end Sys2Proof.Machine
end

section
/-! PROOFS. The host's reads of status, and of a result before DONE (60_exceptions.md R143, R152;
20_memory.md R72). -/

namespace Sys2Proof.Machine

/-! ### Status -/

/-- The table of 60_exceptions.md R143 lists each kind with its code. -/
theorem ErrKind.code_of_mem_table {kind : ErrKind} {code : Nat}
    (h : (kind, code) ∈ [(ErrKind.none, 0), (ErrKind.validation, 1), (ErrKind.format, 2),
      (ErrKind.truncatedStream, 3), (ErrKind.pixelCountMismatch, 4)]) : kind.code = code := by
  simp only [List.mem_cons, Prod.mk.injEq, List.not_mem_nil, or_false] at h
  rcases h with ⟨rfl, rfl⟩ | ⟨rfl, rfl⟩ | ⟨rfl, rfl⟩ | ⟨rfl, rfl⟩ | ⟨rfl, rfl⟩ <;> rfl

theorem step_readErr_enc {s : State} (hnext : s.hostNext (.readErr .enc)) :
    step s = .next { s.popped with reply := some (.errCode s.enc.err.code) } :=
  step_of_hostNext hnext

theorem step_readErr_dec {s : State} (hnext : s.hostNext (.readErr .dec)) :
    step s = .next { s.popped with reply := some (.errCode s.dec.err.code) } :=
  step_of_hostNext hnext

/-! ### Results before DONE -/

theorem hostMove_readOB_of_not_done {s : State} (hearly : s.enc.phase ≠ .done) :
    hostMove .readOB s = .next { s with reply := some .noResult } :=
  if_neg hearly

theorem hostMove_readPO_of_not_done {s : State} (hearly : s.dec.phase ≠ .done) :
    hostMove .readPO s = .next { s with reply := some .noResult } :=
  if_neg hearly

theorem hostMove_readAccessor_of_not_done {s : State} (f : Accessor) (hearly : s.dec.phase ≠ .done) :
    hostMove (.readAccessor f) s = .next { s with reply := some .noResult } :=
  if_neg hearly

/-- Settles O48: the step is the command, and each read has one answer for the unit's register. -/
theorem readsOfStatusAndEarlyReads : Obligations.ReadsOfStatusAndEarlyReads := by
  intro s
  refine ⟨step_of_hostNext, step_of_hostNext, fun kind code hcode => ?err, fun hnext hearly => ?ob,
    fun hnext hearly => ?po, fun f hnext hearly => ?accessor⟩
  case err =>
    obtain rfl := ErrKind.code_of_mem_table hcode
    exact ⟨fun hnext herr => herr ▸ step_readErr_enc hnext, fun hnext herr => herr ▸ step_readErr_dec hnext⟩
  case ob => exact (step_of_hostNext hnext).trans (hostMove_readOB_of_not_done (s := s.popped) hearly)
  case po => exact (step_of_hostNext hnext).trans (hostMove_readPO_of_not_done (s := s.popped) hearly)
  case accessor =>
    exact (step_of_hostNext hnext).trans (hostMove_readAccessor_of_not_done (s := s.popped) f hearly)

end Sys2Proof.Machine
end

section
/-! PROOFS. No state that meets the invariant faults (93_implementation_defined.md section 1): every byte that a
move reads is there. -/

namespace Sys2Proof.Machine

/-! ### The units' own moves go on -/

theorem exists_decMove {s : State} (h : s.dec.Inv) : ∃ t, decMove s = .next t := by
  by_cases hph : s.dec.phase = .stream
  · simp only [decMove, hph]
    exact exists_streamStep h hph
  · exact ⟨s, decMove_of_not_stream hph⟩

theorem exists_encMove {s : State} (h : s.enc.Inv) : ∃ t, encMove s = .next t := by
  cases hbusy : s.enc.busy with
  | false => exact ⟨s, encMove_of_not_busy hbusy⟩
  | true =>
    rcases (busy_enc_iff s.enc).1 hbusy with hph | hph
    · obtain ⟨p, hpix⟩ := h.exists_pixIn hph
      exact ⟨_, encMove_of_pixels hph hpix⟩
    · exact ⟨_, encMove_of_finish hph⟩

/-! ### The host's commands -/

theorem ne_fault_of_next {o : Host.Outcome State Fault Refusal} (f : Fault) (h : ∃ t, o = .next t) :
    o ≠ .fault f := by
  obtain ⟨t, rfl⟩ := h
  nofun

/-- The start command's operand is complete: its header is fetched and runs, or raises. -/
theorem hostDecStart_ne_fault (s : State) (f : Fault) (ib : List Byte) : hostDecStart ib s ≠ .fault f := by
  rw [hostDecStart]
  split
  · nofun
  · dsimp only
    rw [fetchHeader_ofBytes]
    exact ne_fault_of_next f (exists_runFetched_fetched .header (ib.take 14) _)

theorem exists_hostMove_readOB {s : State} (h : s.enc.Inv) : ∃ t, hostMove .readOB s = .next t := by
  by_cases hdone : s.enc.phase = .done
  · obtain ⟨bs, hread⟩ := h.exists_output hdone
    exact ⟨_, hostMove_readOB_of_done hdone hread⟩
  · exact ⟨_, hostMove_readOB_of_not_done hdone⟩

theorem exists_hostMove_readPO {s : State} (h : s.dec.Inv) : ∃ t, hostMove .readPO s = .next t := by
  by_cases hdone : s.dec.phase = .done
  · obtain ⟨bs, hread⟩ := h.exists_output hdone
    exact ⟨_, hostMove_readPO_of_done hdone hread⟩
  · exact ⟨_, hostMove_readPO_of_not_done hdone⟩

/-- Only three commands read bytes: the start of DEC, and the reads of OB and PO. -/
theorem hostMove_ne_fault {s : State} (h : s.Inv) (c : Command) (f : Fault) : hostMove c s ≠ .fault f := by
  obtain ⟨henc, hdec, -⟩ := h
  cases c with
  | decStart ib => exact hostDecStart_ne_fault s f ib
  | readOB => exact ne_fault_of_next f (exists_hostMove_readOB henc)
  | readPO => exact ne_fault_of_next f (exists_hostMove_readPO hdec)
  | encStart w v ch cs pb =>
    simp only [hostMove, hostEncStart]
    split <;> nofun
  | encodeHeader w v ch cs =>
    simp only [hostMove, hostEncodeHeader]
    split <;> nofun
  | decodeHeader bytes =>
    simp only [hostMove, hostDecodeHeader]
    split <;> nofun
  | readAccessor a =>
    simp only [hostMove, hostReadAccessor]
    split <;> nofun
  | readPhase u => cases u <;> nofun
  | readErr u => cases u <;> nofun

/-- Settles O54: by the agent that moves. -/
theorem invariantStatesNeverFault : Obligations.InvariantStatesNeverFault := by
  intro s f hinv
  have hpop : s.popped.Inv := hinv
  obtain ⟨henc, hdec, -⟩ := hinv
  rcases step_cases s with ⟨c, -, hs⟩ | ⟨-, hs⟩ | ⟨-, hs⟩ <;> rw [hs]
  · exact hostMove_ne_fault hpop c f
  · exact ne_fault_of_next f (exists_encMove (s := s.popped) henc)
  · exact ne_fault_of_next f (exists_decMove (s := s.popped) hdec)

end Sys2Proof.Machine
end

section
/-! PROOFS. A unit outside a pass stays as it is until its own start command (60_exceptions.md R150, R159). -/

namespace Sys2Proof.Machine

theorem Dec.phase_ne_stream {d : Dec} (h : d.phase = .idle ∨ d.phase = .done ∨ d.phase = .error) :
    d.phase ≠ .stream := by
  rcases h with h | h | h <;> rw [h] <;> nofun

theorem Enc.not_busy {e : Enc} (h : e.phase = .idle ∨ e.phase = .done ∨ e.phase = .error) :
    e.busy = false := by
  rcases h with h | h | h <;> simp only [Enc.busy, h]

theorem decMove_dec_of_not_stream {s t : State} (hph : s.dec.phase ≠ .stream) (h : decMove s = .next t) :
    t.dec = s.dec := by
  cases (decMove_of_not_stream hph).symm.trans h
  rfl

theorem encMove_enc_of_not_busy {s t : State} (hidle : s.enc.busy = false) (h : encMove s = .next t) :
    t.enc = s.enc := by
  cases (encMove_of_not_busy hidle).symm.trans h
  rfl

/-- Settles O56: by the agent that moves; a command changes a unit only as its start. -/
theorem errorIsLeftOnlyByAStart : Obligations.ErrorIsLeftOnlyByAStart := by
  intro s t hstep
  rcases step_cases s with ⟨c, hc, hs⟩ | ⟨-, hs⟩ | ⟨-, hs⟩
  · obtain ⟨-, hdec, henc⟩ := hostMove_frame (hs.symm.trans hstep)
    exact ⟨fun _ hno => hdec fun ib heq => hno ib (heq ▸ hc),
      fun _ hno => henc fun w v ch cs pb heq => hno w v ch cs pb (heq ▸ hc)⟩
  · have hm := hs.symm.trans hstep
    exact ⟨fun _ _ => (encMove_dec hm).1,
      fun hph _ => encMove_enc_of_not_busy (s := s.popped) (Enc.not_busy hph) hm⟩
  · have hm := hs.symm.trans hstep
    exact ⟨fun hph _ => decMove_dec_of_not_stream (s := s.popped) (Dec.phase_ne_stream hph) hm,
      fun _ _ => (decMove_enc hm).1⟩

end Sys2Proof.Machine
end

section
/-! PROOFS. Power-on reset (70_reset_and_hazards.md R160): both units are IDLE, and the machine meets the
invariant. -/

namespace Sys2Proof.Machine

/-- Settles O51: each clause reads one field of `Enc.reset` or `Dec.reset`. -/
theorem resetIsIdle : Obligations.ResetIsIdle := ⟨rfl, rfl, rfl, rfl, rfl, rfl, rfl, rfl⟩

/-- An idle ENC holds no accepted image, so the invariant asks for its empty buffers only. -/
theorem Enc.inv_reset : Enc.reset.Inv := by
  have hidle : ¬Enc.reset.accepted := by decide
  exact ⟨List.Pairwise.nil, Memory.covers_nil, fun h => absurd h hidle, nofun, nofun, nofun⟩

/-- An idle DEC holds no accepted header, so the invariant asks for its empty buffers only. -/
theorem Dec.inv_reset : Dec.reset.Inv := by
  have hidle : ¬Dec.reset.accepted := by decide
  exact ⟨List.Pairwise.nil, Memory.covers_nil, fun h => absurd h hidle, nofun⟩

/-- Settles O52, unit by unit: DEC is not at DONE, so nothing is asked of its cursor. -/
theorem resetMeetsTheInvariant : Obligations.ResetMeetsTheInvariant :=
  ⟨Enc.inv_reset, Dec.inv_reset, fun _ => nofun⟩

end Sys2Proof.Machine
end

section
/-! PROOFS. What an accepted start makes of its unit (70_reset_and_hazards.md R162): a value of the command's
operands, in which nothing of the earlier pass is left but the model's own count of errors. -/

namespace Sys2Proof.Machine

/-! ### DEC -/

/-- 42_decoder.md R123: a start command that is not refused found DEC outside a pass. -/
theorem dec_not_busy_of_decStart {s t : State} {ib : List Byte} (hnext : s.hostNext (.decStart ib))
    (hstep : step s = .next t) : s.dec.busy = false := by
  rw [Bool.eq_false_iff]
  intro hbusy
  have hrefused : step s = .refused (.startWhileBusy .dec) :=
    (step_of_hostNext hnext).trans
      ((hostDecStart_refused_iff s.popped ib).2 ⟨(busy_dec_iff s.dec).1 hbusy, rfl⟩)
  exact nomatch hstep.symm.trans hrefused

/-- 42_decoder.md R122: DEC after its start command is decided by `decodeHeader` of the operand. -/
theorem dec_of_decStart {s t : State} {ib : List Byte} (hnext : s.hostNext (.decStart ib))
    (hstep : step s = .next t) :
    t.dec = (decodeHeader ib).elim (raiseDec .format { s.dec with ib := Buffer.ofBytes ib })
      (initDec · { s.dec with ib := Buffer.ofBytes ib }) := by
  have hidle := dec_not_busy_of_decStart hnext hstep
  rcases fetched_header_cases ib with ⟨w, h, c, cs, rest, rfl⟩ | ⟨hraise, hnone⟩
  · have hrun := hstep.symm.trans (stepRunsTheHeader s w h c cs rest hidle hnext)
    rw [decodeHeader_encodeHeader]
    cases hlegal : legalFields c cs with
    | true =>
      have hlen : 14 ≤ (encodeHeader w h c cs ++ rest).length := Nat.le_add_left 14 _
      cases hrun.trans (execHeader_of_legal w h hlen hlegal)
      rfl
    | false =>
      cases hrun.trans (execHeader_of_illegal w h (.inr hlegal))
      rfl
  · have hrun := hstep.symm.trans (step_decStart hidle hnext)
    rw [hraise] at hrun
    cases hrun
    rw [hnone]
    rfl

/-! ### ENC -/

/-- 41_encoder.md R103: a start command that is not refused found ENC outside a pass. -/
theorem enc_not_busy_of_encStart {s t : State} {w h c cs : Nat} {pb : List Byte}
    (hnext : s.hostNext (.encStart w h c cs pb)) (hstep : step s = .next t) : s.enc.busy = false := by
  rw [Bool.eq_false_iff]
  intro hbusy
  have hrefused : step s = .refused (.startWhileBusy .enc) :=
    (step_of_hostNext hnext).trans
      ((hostEncStart_refused_iff s.popped w h c cs pb).2 ⟨(busy_enc_iff s.enc).1 hbusy, rfl⟩)
  exact nomatch hstep.symm.trans hrefused

theorem enc_of_encStart {s t : State} {w h c cs : Nat} {pb : List Byte}
    (hnext : s.hostNext (.encStart w h c cs pb)) (hstep : step s = .next t) :
    t.enc = encStart w h c cs { s.enc with pb := Buffer.ofBytes pb } := by
  have hidle := enc_not_busy_of_encStart hnext hstep
  cases hstep.symm.trans ((step_of_hostNext hnext).trans (hostMove_encStart (s := s.popped) w h c cs pb hidle))
  rfl

/-- 41_encoder.md R102: ENC is in a pass after its start only if the operands were legal. -/
theorem valid_of_encStart_pixels {w h c cs : Nat} {e : Enc} (hph : (encStart w h c cs e).phase = .pixels) :
    validEncHeader w h c cs = true ∧ e.pb.len = w * h * c := by
  by_contra hbad
  rw [not_and_or, Bool.not_eq_true] at hbad
  rw [encStart_of_invalid hbad] at hph
  exact nomatch hph

/-! ### Both units -/

/-- Settles O47: on both machines the unit is the same function of the operands, `initDec` or `initEnc` with the
header emitted. -/
theorem startForgetsTheEarlierPass : Obligations.StartForgetsTheEarlierPass := by
  refine ⟨fun s s' t t' ib hnext hnext' hstep hstep' hph => ?dec,
    fun s s' t t' w h c cs pb hnext hnext' hstep hstep' hph => ?enc⟩
  case dec =>
    have hdec := dec_of_decStart hnext hstep
    have hdec' := dec_of_decStart hnext' hstep'
    cases hdecoded : decodeHeader ib with
    | none =>
      rw [hdec, hdecoded] at hph
      exact nomatch hph
    | some hdr =>
      rw [hdec', hdec, hdecoded]
      exact ⟨Cache.slot_cleared, rfl, rfl, rfl⟩
  case enc =>
    have henc := enc_of_encStart hnext hstep
    rw [henc] at hph
    obtain ⟨hval, hlen⟩ := valid_of_encStart_pixels hph
    have hinit := henc.trans (encStart_of_valid hval hlen)
    have hinit' := (enc_of_encStart hnext' hstep').trans (encStart_of_valid hval hlen)
    rw [hinit', hinit]
    exact ⟨Cache.slot_cleared, rfl, rfl, rfl⟩

end Sys2Proof.Machine
end
